-- ==== Sys2Proof/Word.lean ====
section
/-! DEFINITION. The word types of the block (spec/00_scope.md R8, R9, R10): bit 0 is the least significant bit. -/

namespace Sys2Proof

/-- `u64` (R10): STATE, OPA, OPB and RES are 64-bit words. -/
abbrev Word := BitVec 64

/-- The command word CMD is 8 bits (R8, R60). -/
abbrev Byte := BitVec 8

end Sys2Proof
end

