-- ==== Sys2Proof/Syntax.lean ====
section
/-! DEFINITION. The command triple (spec/30_encoding.md R60) and the nine commands (R63). -/

namespace Sys2Proof

/-- One command as it stands on the port: the triple (CMD, OPA, OPB) of R60. -/
structure Command where
  cmd : Byte
  opa : Word
  opb : Word
  deriving DecidableEq, Repr

/-- The commands of R63, each with the operands R62 says it reads. An ignored operand is no part of the
instruction ("It does not change the command's effect or its response", R62; log entry 11). -/
inductive Instr
  /-- CONSTRUCT (R80): OPA = seed. -/
  | construct (seed : Word)
  /-- RESEED (R81): OPA = seed. -/
  | reseed (seed : Word)
  /-- GETSTATE (R82). -/
  | getstate
  /-- NEXT (R93). -/
  | next
  /-- NEXTDOUBLE (R112). -/
  | nextdouble
  /-- RANGE (R121): OPA = n. -/
  | range (n : Word)
  /-- RANDINT.U (R125): OPA = low, OPB = high, read as unsigned. -/
  | randintU (low high : Word)
  /-- RANDINT.S (R125): OPA = low, OPB = high, read as two's complement. -/
  | randintS (low high : Word)
  /-- TOSS (R128). -/
  | toss
  deriving DecidableEq, Repr

end Sys2Proof
end

