-- ==== Sys2Proof/WellFormed.lean ====
section
/-! DEFINITION. Well-formedness. A raw command word is well formed when none of the three grounds of
spec/30_encoding.md R64 makes it illegal; an instruction of the syntax always is. The checks are written
with masks on the whole byte, apart from the decoder's field extraction, so that the two can be compared. -/

namespace Sys2Proof

/-- R61: RSV, CMD[7:5], must be 000. -/
def Command.reservedClear (c : Command) : Bool := c.cmd &&& 0xE0 == 0

/-- R64: S = 1 only with OP = 0x6. -/
def Command.signedAllowed (c : Command) : Bool := c.cmd &&& 0x10 == 0 || c.cmd &&& 0x0F == 6

/-- R64: OP in 0x8 to 0xF names no command. -/
def Command.opAssigned (c : Command) : Bool := c.cmd &&& 0x08 == 0

/-- A command word that names a command: none of R64's three grounds for an illegal value holds. -/
def Command.wellFormed (c : Command) : Bool := c.reservedClear && c.signedAllowed && c.opAssigned

/-- Every instruction of the syntax is well formed: an operand is any 64-bit word (R62, R83), and a bad operand
value (`RANGE 0`, an interval with low > high) is a legal command with an error response (R142), not an
ill-formed one. There is therefore no check here to refuse a term. -/
def Instr.wellFormed : Instr → Bool
  | .construct _ => true
  | .reseed _ => true
  | .getstate => true
  | .next => true
  | .nextdouble => true
  | .range _ => true
  | .randintU _ _ => true
  | .randintS _ _ => true
  | .toss => true

end Sys2Proof
end

