-- ==== Sys2Proof/Decode.lean ====
section
/-! DEFINITION. Decoding and encoding of the command word (spec/30_encoding.md R61 to R66). -/

namespace Sys2Proof

/-- Why a command word is illegal: the three grounds of R64. All three are answered alike, ILLEGAL_COMMAND. -/
inductive IllegalWord
  /-- RSV other than 000. -/
  | reservedBits
  /-- S = 1 with OP other than 0x6. -/
  | signedSelect
  /-- OP in 0x8 to 0xF. -/
  | unassignedOp
  deriving DecidableEq, Repr

/-- OP = CMD[3:0] (R61). -/
def Command.op (c : Command) : BitVec 4 := c.cmd.extractLsb' 0 4

/-- S = CMD[4] (R61). -/
def Command.sBit (c : Command) : BitVec 1 := c.cmd.extractLsb' 4 1

/-- RSV = CMD[7:5] (R61). -/
def Command.rsv (c : Command) : BitVec 3 := c.cmd.extractLsb' 5 3

/-- The decoder of R65: total over all 256 command words, and an illegal word is rejected by name. -/
def decode (c : Command) : Except IllegalWord Instr :=
  if c.rsv ≠ 0 then .error .reservedBits
  else if c.sBit = 1 ∧ c.op ≠ 6 then .error .signedSelect
  else match c.op.toNat with
    | 0 => .ok (.construct c.opa)
    | 1 => .ok (.reseed c.opa)
    | 2 => .ok .getstate
    | 3 => .ok .next
    | 4 => .ok .nextdouble
    | 5 => .ok (.range c.opa)
    | 6 => if c.sBit = 0 then .ok (.randintU c.opa c.opb) else .ok (.randintS c.opa c.opb)
    | 7 => .ok .toss
    | _ => .error .unassignedOp

/-- The triple of an instruction, by R63 and the assembler's table R66 (0 in ignored operands). -/
def encode : Instr → Command
  | .construct seed => ⟨0x00, seed, 0⟩
  | .reseed seed => ⟨0x01, seed, 0⟩
  | .getstate => ⟨0x02, 0, 0⟩
  | .next => ⟨0x03, 0, 0⟩
  | .nextdouble => ⟨0x04, 0, 0⟩
  | .range n => ⟨0x05, n, 0⟩
  | .randintU low high => ⟨0x06, low, high⟩
  | .randintS low high => ⟨0x16, low, high⟩
  | .toss => ⟨0x07, 0, 0⟩

/-- R62: the commands that read OPA. -/
def Instr.readsOPA : Instr → Bool
  | .construct _ => true
  | .reseed _ => true
  | .getstate => false
  | .next => false
  | .nextdouble => false
  | .range _ => true
  | .randintU _ _ => true
  | .randintS _ _ => true
  | .toss => false

/-- R62: the commands that read OPB. -/
def Instr.readsOPB : Instr → Bool
  | .construct _ => false
  | .reseed _ => false
  | .getstate => false
  | .next => false
  | .nextdouble => false
  | .range _ => false
  | .randintU _ _ => true
  | .randintS _ _ => true
  | .toss => false

/-- The triple as one number, in the order the spec writes it (`CMD:OPA:OPB`, R60, R68): CMD in bits 7..0, OPA in
bits 71..8, OPB in bits 135..72 (DESIGN CHOICE, log entry 4). -/
def Command.toNumber (c : Command) : Nat :=
  c.cmd.toNat + c.opa.toNat * 2 ^ 8 + c.opb.toNat * 2 ^ 72

/-- The triple that stands in a number laid out as `Command.toNumber` lays it out. -/
def Command.ofNumber (w : Nat) : Command :=
  ⟨BitVec.ofNat 8 w, BitVec.ofNat 64 (w / 2 ^ 8), BitVec.ofNat 64 (w / 2 ^ 72)⟩

/-- The command whose lowest `nbits` bits are `w`'s and whose other bits are 0. -/
def Command.ofTableWord (nbits w : Nat) : Command := Command.ofNumber (w % 2 ^ nbits)

/-- What the decoder reads from an instruction whose bits are `w`, numbered as spec/opcode_table.json numbers
them; the bits from `nbits` up are 0. -/
def decodeTableWord (nbits w : Nat) : Option Instr := (decode (Command.ofTableWord nbits w)).toOption

end Sys2Proof
end

