-- ==== Sys2Proof/Config.lean ====
section
/-! DEFINITION. What the spec leaves to the environment. The parameters of the block itself are all fixed
(spec/00_scope.md R7) and stand in Machine/Ops.lean. -/

namespace Sys2Proof

/-- SERIAL_BYTE_ORDER (spec/20_memory.md R42, D15): the byte order in which the requester keeps a checkpoint
outside the block. Position `k` of the stored copy holds byte `serialByteOrder k` of the word (byte 0 the least
significant). OPEN: no value is given. The block never reads it (log entry 12). -/
opaque Config.serialByteOrder : Equiv.Perm (Fin 8)

end Sys2Proof
end

