-- ==== Sys2Proof/Machine/State.lean ====
section
/-! DEFINITION. The state of one instance of the block and its port (spec/10_state.md R20 to R30), and the
reasons a step can stop (spec/60_exceptions.md R148, R156). -/

namespace Sys2Proof.Machine

/-- The response codes of R140 (their 2-bit values are `Code.bits` in Machine/Flags.lean). -/
inductive Code
  | ok
  | illegalCommand
  | invalidRange
  | invalidInterval
  deriving DecidableEq, Repr

/-- One response (CODE, RES) of R60. -/
structure Response where
  code : Code
  res : Word
  deriving DecidableEq, Repr

/-- What the requester does at the port (R15, R45, R170). -/
inductive PortEvent
  /-- The hardware reset of R170. -/
  | reset
  /-- A command presented while no other is in progress, as R45 asks. -/
  | command (c : Command)
  /-- `second` presented while `first` has not completed: the protocol violation of R45 and R148 (a). -/
  | overlap (first second : Command)
  deriving DecidableEq, Repr

/-- One instance. `STATE` is the whole architectural state (R20, R30: `none` before the first reset). `port` and
`response` stand for the two sides of the port, outside the block: what the requester will do next, oldest first
(log entry 1), and what the transaction of the last step answered (log entry 2; "outputs of that command's
transaction", R26). -/
structure State where
  STATE : Option Word
  port : List PortEvent
  response : Option Response
  deriving DecidableEq, Repr

/-- The model faults of R148; R156 allows no other. Neither is ever cleared: a fault has no next state. -/
inductive Fault
  /-- Raised by every command, legal or not, presented while STATE holds no value (R148 (b), R171). Safe: the model
  stops where a real block might work (D7). -/
  | beforeReset
  /-- Raised by the step when a command is presented while another is in progress (R45, R148 (a)). Safe: the model
  stops where a real block might work (D14). -/
  | overlappingCommands
  deriving DecidableEq, Repr

/-- R156: "There is no refusal outcome". -/
inductive Refusal
  /-- An instruction of the table whose meaning is not written yet. Nothing raises it: every instruction has its
  meaning. Safe. -/
  | notModelled (mnemonic : String)
  deriving DecidableEq, Repr

/-- The three outcomes of R156 over this machine's types. -/
abbrev Result := Host.Outcome State Fault Refusal

/-- The machine right after reset (R29, R170, R172): STATE = 0, no response held; the requester has asked nothing
yet (log entry 1). -/
def State.reset : State := { STATE := some 0, port := [], response := none }

/-- The machine before its first reset (R30, R171): STATE holds no value. -/
def State.powerOn : State := { STATE := none, port := [], response := none }

end Sys2Proof.Machine
end

