-- ==== Sys2Proof/Machine/Ops.lean ====
section
/-! DEFINITION. The shared operations: the state transition T and the mixer M (spec/41_state_transition_mixer.md),
the draw, the responses, taking an error (spec/60_exceptions.md R143), and reset. -/

namespace Sys2Proof.Machine

/-- GAMMA, the golden-ratio increment (R7, R90). -/
def gamma : Word := 0x9E3779B97F4A7C15

/-- Mixer multiplier C1 (R7, R91). -/
def mixC1 : Word := 0xBF58476D1CE4E5B9

/-- Mixer multiplier C2 (R7, R91). -/
def mixC2 : Word := 0x94D049BB133111EB

/-- T (R90): wrapping addition of GAMMA. -/
def stateTransition (s : Word) : Word := s + gamma

/-- `z ^ (z >> k)`, the shift logical (R91). -/
def xorShift (z : Word) (k : Nat) : Word := z ^^^ (z >>> k)

/-- M (R91): the finaliser. -/
def outputMixer (z : Word) : Word :=
  let z1 := xorShift z 30 * mixC1
  let z2 := xorShift z1 27 * mixC2
  xorShift z2 31

/-- `NextRaw()` (R92) from the value of STATE: the stepped STATE, and the raw value M of the stepped state. -/
def nextRaw (x : Word) : Word × Word :=
  let x' := stateTransition x
  (x', outputMixer x')

/-- Runs `f` on the value of STATE. While STATE holds no value no command has an effect (R148 (b), R171). -/
def withSTATE (s : State) (f : Word → Result) : Result :=
  match s.STATE with
  | none => .fault .beforeReset
  | some x => f x

/-- `STATE <- v` (R12). -/
def State.writeSTATE (s : State) (v : Word) : State := { s with STATE := some v }

/-- `CODE <- c; RES <- v` (R12): the response of this step's transaction. -/
def State.respond (s : State) (c : Code) (v : Word) : State := { s with response := some ⟨c, v⟩ }

/-- Takes the requester's oldest request off the port. -/
def State.withPort (s : State) (p : List PortEvent) : State := { s with port := p }

/-- Taking an error, `raise Error(c)` (R12, R143, R145): CODE <- c, RES <- 0, STATE not written, no draw, nothing
saved and no control transferred. There is no return operation, for no error state is held (R146). -/
def raiseError (c : Code) (s : State) : Result :=
  withSTATE s fun _ => .next (s.respond c 0)

/-- A command that completes with CODE = OK after writing STATE (R80, R81). -/
def seedSTATE (seed : Word) (s : State) : Result :=
  withSTATE s fun _ => .next ((s.writeSTATE seed).respond .ok 0)

/-- A drawing command past its checks (R92): one draw, CODE = OK, and RES computed by `f` from the raw value. -/
def drawResult (s : State) (f : Word → Word) : Result :=
  withSTATE s fun x =>
    let d := nextRaw x
    .next ((s.writeSTATE d.1).respond .ok (f d.2))

/-- Reset (R170, R172): STATE <- 0 and nothing else; no response of an earlier command is held. It needs no
earlier STATE (R171). -/
def hardReset (s : State) : State := { s with STATE := some 0, response := none }

/-- A step in which the requester asks nothing: STATE keeps its value (R155), and there is no transaction and so
no response (DEDUCED, log entry 3). -/
def idle (s : State) : State := { s with response := none }

end Sys2Proof.Machine
end

