-- ==== Sys2Proof/Machine/Operands.lean ====
section
/-! DEFINITION. How operand words are read (spec/00_scope.md R10, spec/30_encoding.md R62), the order checks and the
span of an interval (spec/43_bounded_int.md R124, R125), and the reduction (R120). -/

namespace Sys2Proof.Machine

/-- `nat(v)`: the unsigned reading (R10, R11). -/
def unat (v : Word) : Nat := v.toNat

/-- `sint(v)`: the two's-complement reading, `v - 2^64` if `v[63] = 1`, else `v` (R10). -/
def sint (v : Word) : Int := if v.getLsbD 63 then (v.toNat : Int) - 2 ^ 64 else (v.toNat : Int)

/-- `low <=u high` (R11, R125). -/
def orderedU (low high : Word) : Bool := decide (unat low ≤ unat high)

/-- `sint(low) <= sint(high)` (R11, R125). -/
def orderedS (low high : Word) : Bool := decide (sint low ≤ sint high)

/-- The span (R124): the wrapping difference plus one, computed in 65 bits, 1 to 2^64; one formula for both
readings. -/
def span (low high : Word) : Nat := unat (high - low) + 1

/-- B (R120): the plain remainder, the modulo bias kept. -/
def reduce (r : Word) (n : Nat) : Nat := unat r % n

/-- `low + (nat(r) mod span)` with a wrapping add (R125, R126). -/
def intoInterval (low high r : Word) : Word := low + BitVec.ofNat 64 (reduce r (span low high))

/-- The word the requester drives for a seed of any width: its low 64 bits (R83; before the command is formed). -/
def driveSeed (v : Nat) : Word := BitVec.ofNat 64 v

end Sys2Proof.Machine
end

