-- ==== Sys2Proof/Machine/Flags.lean ====
section
/-! DEFINITION. The block has no flags (spec/10_state.md R21). What a command reports is its response code: the
code values (spec/60_exceptions.md R140) and the operand checks that give the error codes (R142). -/

namespace Sys2Proof.Machine

/-- The 2-bit CODE values of R140. -/
def Code.bits : Code → BitVec 2
  | .ok => 0
  | .illegalCommand => 1
  | .invalidRange => 2
  | .invalidInterval => 3

/-- The code a 2-bit value stands for (R140: all four are assigned). -/
def Code.ofBits (b : BitVec 2) : Code :=
  match b.toNat with
  | 0 => .ok
  | 1 => .illegalCommand
  | 2 => .invalidRange
  | _ => .invalidInterval

/-- RANGE's operand check (R121, R142): n = 0. -/
def rangeError (n : Word) : Option Code := if n = 0 then some .invalidRange else none

/-- RANDINT.U's operand check (R125, R142): low > high, unsigned. -/
def intervalErrorU (low high : Word) : Option Code :=
  if orderedU low high then none else some .invalidInterval

/-- RANDINT.S's operand check (R125, R142): low > high, signed. -/
def intervalErrorS (low high : Word) : Option Code :=
  if orderedS low high then none else some .invalidInterval

/-- A command with its operand check before its effect (R142): the error is raised before any draw. -/
def checked (e : Option Code) (s : State) (effect : Result) : Result :=
  match e with
  | some c => raiseError c s
  | none => effect

end Sys2Proof.Machine
end

