-- ==== Sys2Proof/Machine/BoundedInt.lean ====
section
/-! DEFINITION. RANGE, RANDINT.U, RANDINT.S and TOSS (spec/43_bounded_int.md). -/

namespace Sys2Proof.Machine

/-- RANGE (R121): INVALID_RANGE when n = 0, before any draw; else one draw and RES <- r mod n. -/
def execRange (n : Word) (s : State) : Result :=
  checked (rangeError n) s (drawResult s fun r => BitVec.ofNat 64 (reduce r (unat n)))

/-- RANDINT.U (R125, S = 0): INVALID_INTERVAL when low > high unsigned, before any draw; else one draw and
RES <- low + (r mod span). -/
def execRandintU (low high : Word) (s : State) : Result :=
  checked (intervalErrorU low high) s (drawResult s fun r => intoInterval low high r)

/-- RANDINT.S (R125, S = 1): as RANDINT.U with the order check signed; "Signedness changes only the order check, not
the arithmetic" (D10). -/
def execRandintS (low high : Word) (s : State) : Result :=
  checked (intervalErrorS low high) s (drawResult s fun r => intoInterval low high r)

/-- TOSS (R128): one draw, RES <- r mod 2, always OK. -/
def execToss (s : State) : Result := drawResult s fun r => BitVec.ofNat 64 (reduce r 2)

end Sys2Proof.Machine
end

