-- ==== Sys2Proof/Machine/Draw.lean ====
section
/-! DEFINITION. NEXT (spec/41_state_transition_mixer.md R93). -/

namespace Sys2Proof.Machine

/-- NEXT (R93): one draw, RES <- the raw value, always OK. -/
def execNext (s : State) : Result := drawResult s fun r => r

end Sys2Proof.Machine
end

