-- ==== Sys2Proof/Machine/StateAccess.lean ====
section
/-! DEFINITION. CONSTRUCT, RESEED and GETSTATE (spec/40_state_access.md). -/

namespace Sys2Proof.Machine

/-- CONSTRUCT (R80): STATE <- seed, RES <- 0, always OK. -/
def execConstruct (seed : Word) (s : State) : Result := seedSTATE seed s

/-- RESEED (R81): STATE <- seed, RES <- 0, always OK; the prior stream position is discarded. -/
def execReseed (seed : Word) (s : State) : Result := seedSTATE seed s

/-- GETSTATE (R82): RES <- STATE, STATE not written, always OK. -/
def execGetstate (s : State) : Result := withSTATE s fun x => .next (s.respond .ok x)

end Sys2Proof.Machine
end

