-- ==== Sys2Proof/Machine/UniformDouble.lean ====
section
/-! DEFINITION. The uniform double converter and NEXTDOUBLE (spec/42_uniform_double.md). -/

namespace Sys2Proof.Machine

/-- `m = r >> 11`: the top 53 bits of the raw value (R110). -/
def topBits (r : Word) : Nat := unat (r >>> 11)

/-- `to_binary64(m)` (R111) for 0 <= m < 2^53: the binary64 pattern of m * 2^-53, with no rounding. -/
def toBinary64 (m : Nat) : Word :=
  if m = 0 then 0
  else
    let e := Nat.log2 m
    let exponent := e + 970
    let fraction := (m - 2 ^ e) <<< (52 - e)
    BitVec.ofNat 64 ((exponent <<< 52) ||| fraction)

/-- NEXTDOUBLE (R112): one draw, RES <- to_binary64(r >> 11), always OK. -/
def execNextdouble (s : State) : Result := drawResult s fun r => toBinary64 (topBits r)

/-- Bit 63 of a binary64 pattern (R111). -/
def binary64Sign (w : Word) : Bool := w.getLsbD 63

/-- Bits 62:52 of a binary64 pattern, the biased exponent (R111). -/
def binary64Exponent (w : Word) : Nat := (w.extractLsb' 52 11).toNat

/-- Bits 51:0 of a binary64 pattern, the fraction (R111). -/
def binary64Fraction (w : Word) : Nat := (w.extractLsb' 0 52).toNat

/-- The magnitude a finite binary64 pattern stands for: a normal number has an implicit leading 1 (G1 of
spec/93_implementation_defined.md). For exponent 0 it is the subnormal reading, which R111 never produces but for
+0.0 (PRESUMED, log entry 16). A reading aid for claims about values; no command computes it. -/
def binary64Magnitude (w : Word) : ℚ :=
  if binary64Exponent w = 0 then (binary64Fraction w : ℚ) / 2 ^ 1074
  else (2 ^ 52 + binary64Fraction w : ℚ) * 2 ^ binary64Exponent w / 2 ^ 1075

/-- The value a finite binary64 pattern stands for; none for an infinity or a NaN (exponent 2047). -/
def binary64Value (w : Word) : Option ℚ :=
  if binary64Exponent w = 2047 then none
  else some (if binary64Sign w then -binary64Magnitude w else binary64Magnitude w)

end Sys2Proof.Machine
end

