-- ==== Sys2Proof/Machine/Dispatch.lean ====
section
/-! DEFINITION. One arm per command of spec/30_encoding.md R63. -/

namespace Sys2Proof.Machine

def exec (i : Instr) (s : State) : Host.Outcome State Fault Refusal :=
  match i with
  | .construct seed => Sys2Proof.Machine.execConstruct seed s
  | .reseed seed => Sys2Proof.Machine.execReseed seed s
  | .getstate => Sys2Proof.Machine.execGetstate s
  | .next => Sys2Proof.Machine.execNext s
  | .nextdouble => Sys2Proof.Machine.execNextdouble s
  | .range n => Sys2Proof.Machine.execRange n s
  | .randintU low high => Sys2Proof.Machine.execRandintU low high s
  | .randintS low high => Sys2Proof.Machine.execRandintS low high s
  | .toss => Sys2Proof.Machine.execToss s

end Sys2Proof.Machine
end

