-- ==== Sys2Proof/Machine/Port.lean ====
section
/-! DEFINITION. What the block does with the requester's oldest request (spec/30_encoding.md R60, R64;
spec/20_memory.md R44, R45; spec/70_reset_and_hazards.md R170). -/

namespace Sys2Proof.Machine

/-- One transaction: decoding comes first (R144). A legal word runs its command; an illegal one is answered
ILLEGAL_COMMAND whatever its operands (R64, R141). Before the first reset either is the fault of R148 (b)
(log entry 7). -/
def runCommand (c : Command) (s : State) : Result :=
  match decode c with
  | .ok i => exec i s
  | .error _ => raiseError .illegalCommand s

/-- One request: a reset (R170), a command as one whole transaction (R13), or the race of R148 (a), which has no
response and no effect. -/
def runEvent (e : PortEvent) (s : State) : Result :=
  match e with
  | .reset => .next (hardReset s)
  | .command c => runCommand c s
  | .overlap _ _ => .fault .overlappingCommands

/-- Takes the oldest request and runs it; with none the block idles (log entry 3). -/
def runPort (s : State) : Result :=
  match s.port with
  | [] => .next (idle s)
  | e :: rest => runEvent e (s.withPort rest)

/-- Presents a command at the port, ahead of everything still pending there. -/
def present (c : Command) (s : State) : State := s.withPort (.command c :: s.port)

end Sys2Proof.Machine
end

