-- ==== Sys2Proof/Machine/Step.lean ====
section
/-! DEFINITION. One step of the block: one command is one step (spec/70_reset_and_hazards.md R177). -/

namespace Sys2Proof.Machine

/-- One step: the requester's oldest request runs to its end (R13, R44). -/
def step (s : State) : Host.Outcome State Fault Refusal := runPort s

/-- `s` with the command of a table word presented next: its `nbits` low bits are `w`'s, the rest 0 (log entries 1
and 4). -/
def State.withFetchWord (s : State) (nbits w : Nat) : State := present (Command.ofTableWord nbits w) s

end Sys2Proof.Machine
end

