-- ==== Sys2Proof/Machine/Assembler.lean ====
section
/-! DEFINITION. The spec's assembler (spec/30_encoding.md R66, R67, R68): literals, lines, their command triples, the
text of a line and of a triple. The requester's side; the block sees the triple only. -/

namespace Sys2Proof.Machine

/-- A literal as written (R66): decimal, perhaps negative, or `0x` hexadecimal. -/
inductive Literal
  | decimal (v : Int)
  | hex (v : Nat)
  deriving DecidableEq, Repr

/-- A line (R66) or one of the two pseudo-instructions (R67: CONSTRUCT with no operand, and `.CMD byte, a, b`). -/
inductive AsmLine
  | construct (seed : Option Literal)
  | reseed (seed : Literal)
  | getstate
  | next
  | nextdouble
  | range (n : Literal)
  | randintU (low high : Literal)
  | randintS (low high : Literal)
  | toss
  | raw (byte a b : Literal)
  deriving DecidableEq, Repr

/-- R66: "A literal outside the range for its command is an assembler error, not a command." -/
inductive AsmError
  | literalOutOfRange
  deriving DecidableEq, Repr

/-- The number a literal writes. -/
def literalValue : Literal → Int
  | .decimal v => v
  | .hex v => v

/-- R66: commands other than RANDINT.S accept 0 to 2^64-1. The byte of `.CMD` accepts 0 to 2^8-1 (DEDUCED, log entry
13). -/
def unsignedInRange (bits : Nat) (l : Literal) : Bool :=
  decide (0 ≤ literalValue l ∧ literalValue l < 2 ^ bits)

/-- R66: RANDINT.S also accepts a negative decimal literal down to -2^63 (DEDUCED, log entry 13). -/
def signedInRange (l : Literal) : Bool :=
  decide (-2 ^ 63 ≤ literalValue l ∧ literalValue l < 2 ^ 64)

/-- The word a literal stands for; a negative one by its two's-complement word (R66). -/
def literalWord (l : Literal) : Word := BitVec.ofInt 64 (literalValue l)

/-- A line whose literals are all in range for its command (R66). -/
def AsmLine.wellFormed : AsmLine → Bool
  | .construct none => true
  | .construct (some seed) => unsignedInRange 64 seed
  | .reseed seed => unsignedInRange 64 seed
  | .getstate => true
  | .next => true
  | .nextdouble => true
  | .range n => unsignedInRange 64 n
  | .randintU low high => unsignedInRange 64 low && unsignedInRange 64 high
  | .randintS low high => signedInRange low && signedInRange high
  | .toss => true
  | .raw byte a b => unsignedInRange 8 byte && unsignedInRange 64 a && unsignedInRange 64 b

/-- The triple of a line whose literals are in range (R66's table; R67 for the default seed and `.CMD`). -/
def lineCommand : AsmLine → Command
  | .construct none => ⟨0x00, 0, 0⟩
  | .construct (some seed) => ⟨0x00, literalWord seed, 0⟩
  | .reseed seed => ⟨0x01, literalWord seed, 0⟩
  | .getstate => ⟨0x02, 0, 0⟩
  | .next => ⟨0x03, 0, 0⟩
  | .nextdouble => ⟨0x04, 0, 0⟩
  | .range n => ⟨0x05, literalWord n, 0⟩
  | .randintU low high => ⟨0x06, literalWord low, literalWord high⟩
  | .randintS low high => ⟨0x16, literalWord low, literalWord high⟩
  | .toss => ⟨0x07, 0, 0⟩
  | .raw byte a b => ⟨BitVec.ofInt 8 (literalValue byte), literalWord a, literalWord b⟩

/-- The assembler (R66). -/
def assemble (l : AsmLine) : Except AsmError Command :=
  if l.wellFormed then .ok (lineCommand l) else .error .literalOutOfRange

/-- One hexadecimal digit of R68's notation, upper case. -/
def hexDigit (d : Nat) : Char := if d < 10 then Char.ofNat (48 + d) else Char.ofNat (55 + d)

/-- The lowest `count` hexadecimal digits of a number, the most significant first. -/
def hexDigits : Nat → Nat → List Char
  | 0, _ => []
  | count + 1, v => hexDigits count (v / 16) ++ [hexDigit (v % 16)]

/-- `CMD:OPA:OPB` in hexadecimal (R68). -/
def commandText (c : Command) : List Char :=
  hexDigits 2 c.cmd.toNat ++ ':' :: hexDigits 16 c.opa.toNat ++ ':' :: hexDigits 16 c.opb.toNat

/-- A digit's value in base 10 or 16; hexadecimal letters in either case. -/
def digitValue (base : Nat) (c : Char) : Option Nat :=
  let n := c.toNat
  let d := if 48 ≤ n ∧ n ≤ 57 then n - 48
    else if 65 ≤ n ∧ n ≤ 70 then n - 55
    else if 97 ≤ n ∧ n ≤ 102 then n - 87
    else base
  if d < base then some d else none

/-- A digit string's value after the digits already read. -/
def digitsValue (base : Nat) : Nat → List Char → Option Nat
  | acc, [] => some acc
  | acc, c :: cs =>
    match digitValue base c with
    | some d => digitsValue base (acc * base + d) cs
    | none => none

/-- A digit string of at least one digit. -/
def readDigits (base : Nat) (cs : List Char) : Option Nat :=
  if cs.isEmpty then none else digitsValue base 0 cs

/-- A literal's text (R66): `0x` and hexadecimal digits, or decimal digits with an optional minus sign. -/
def readLiteral : List Char → Option Literal
  | '0' :: 'x' :: cs => (readDigits 16 cs).map Literal.hex
  | '-' :: cs => (readDigits 10 cs).map fun n => Literal.decimal (-(n : Int))
  | cs => (readDigits 10 cs).map fun n => Literal.decimal n

/-- Text without the spaces at its two ends. -/
def trimSpaces (cs : List Char) : List Char :=
  ((cs.dropWhile (· == ' ')).reverse.dropWhile (· == ' ')).reverse

/-- The pieces of a text between its commas. -/
def splitCommas : List Char → List (List Char)
  | [] => [[]]
  | c :: cs =>
    if c == ',' then [] :: splitCommas cs
    else match splitCommas cs with
      | [] => [[c]]
      | p :: ps => (c :: p) :: ps

/-- All literals of a list of texts, or none where one is no literal. -/
def readLiterals : List (List Char) → Option (List Literal)
  | [] => some []
  | t :: ts =>
    match readLiteral (trimSpaces t), readLiterals ts with
    | some l, some ls => some (l :: ls)
    | _, _ => none

/-- The operands after the mnemonic, between commas; none at all when only spaces follow. -/
def readOperands (cs : List Char) : Option (List Literal) :=
  if (trimSpaces cs).isEmpty then some [] else readLiterals (splitCommas cs)

/-- The line of a mnemonic and its operands (R66, R67); none where no line has that form. -/
def lineOf (mnemonic : List Char) (operands : List Literal) : Option AsmLine :=
  if mnemonic = "CONSTRUCT".toList then
    match operands with
    | [] => some (.construct none)
    | [seed] => some (.construct (some seed))
    | _ => none
  else if mnemonic = "RESEED".toList then
    match operands with
    | [seed] => some (.reseed seed)
    | _ => none
  else if mnemonic = "GETSTATE".toList then if operands.isEmpty then some .getstate else none
  else if mnemonic = "NEXT".toList then if operands.isEmpty then some .next else none
  else if mnemonic = "NEXTDOUBLE".toList then if operands.isEmpty then some .nextdouble else none
  else if mnemonic = "RANGE".toList then
    match operands with
    | [n] => some (.range n)
    | _ => none
  else if mnemonic = "RANDINT.U".toList then
    match operands with
    | [low, high] => some (.randintU low high)
    | _ => none
  else if mnemonic = "RANDINT.S".toList then
    match operands with
    | [low, high] => some (.randintS low high)
    | _ => none
  else if mnemonic = "TOSS".toList then if operands.isEmpty then some .toss else none
  else if mnemonic = ".CMD".toList then
    match operands with
    | [byte, a, b] => some (.raw byte a b)
    | _ => none
  else none

/-- Reads one line of text (R66: one command per line, `MNEMONIC` or `MNEMONIC operand[, operand]`). -/
def readLine (text : List Char) : Option AsmLine :=
  let t := trimSpaces text
  match readOperands (t.dropWhile (· != ' ')) with
  | some operands => lineOf (t.takeWhile (· != ' ')) operands
  | none => none

end Sys2Proof.Machine
end

