-- ==== Sys2Proof/Machine/Bank.lean ====
section
/-! DEFINITION. Several instances (spec/10_state.md R28, spec/20_memory.md R46, spec/60_exceptions.md R153). Instances
share nothing and have no identifiers; a place in the list is only the model's way to name one (log entry 14). -/

namespace Sys2Proof.Machine

/-- One instance as it stands: running in some state, or stopped for good by a fault (R148: "a fault that is never
cleared"). -/
abbrev Instance := Result

/-- One step of an instance; a stopped one stays stopped. -/
def Instance.advance : Instance → Instance
  | .next s => step s
  | .fault f => .fault f
  | .refused r => .refused r

/-- A request arriving at an instance's port, behind those already there; a stopped instance takes none. -/
def Instance.receive (e : PortEvent) : Instance → Instance
  | .next s => .next (s.withPort (s.port ++ [e]))
  | .fault f => .fault f
  | .refused r => .refused r

/-- Several independent instances. -/
abbrev Bank := List Instance

/-- Instance `k` takes a step. -/
def Bank.advance (b : Bank) (k : Nat) : Bank := b.modify k Instance.advance

/-- A request arrives at instance `k`. -/
def Bank.receive (b : Bank) (k : Nat) (e : PortEvent) : Bank := b.modify k (Instance.receive e)

end Sys2Proof.Machine
end

