-- ==== Sys2Proof/Machine/Checkpoint.lean ====
section
/-! DEFINITION. A checkpoint kept outside the block as eight bytes, in any byte order (spec/20_memory.md R42, D15):
the requester's side; the block never sees a byte. -/

namespace Sys2Proof.Machine

/-- Byte `k` of a word, byte 0 the least significant (R9). -/
def byteOf (v : Word) (k : Fin 8) : Byte := v.extractLsb' (8 * k.val) 8

/-- The stored copy of a word in byte order `o`: position `k` holds byte `o k`. -/
def storeBytes (o : Equiv.Perm (Fin 8)) (v : Word) : Vector Byte 8 := Vector.ofFn fun k => byteOf v (o k)

/-- The word that a stored copy in byte order `o` stands for. -/
def restoreBytes (o : Equiv.Perm (Fin 8)) (b : Vector Byte 8) : Word :=
  (List.finRange 8).foldl (fun acc j => acc ||| ((b[o.symm j].setWidth 64 : Word) <<< (8 * j.val))) 0

/-- The copy in the environment's own order, SERIAL_BYTE_ORDER. -/
def checkpointBytes (v : Word) : Vector Byte 8 := storeBytes Config.serialByteOrder v

/-- The word for RESEED from a copy in the environment's own order. -/
def checkpointWord (b : Vector Byte 8) : Word := restoreBytes Config.serialByteOrder b

end Sys2Proof.Machine
end

