-- ==== Sys2Proof/Machine/InverseMixer.lean ====
section
/-! DEFINITION. The inverse of the mixer (spec/41_state_transition_mixer.md R95): "a testing aid. No command computes
it." -/

namespace Sys2Proof.Machine

/-- C1_inv (R95). -/
def mixC1Inv : Word := 0x96DE1B173F119089

/-- C2_inv (R95). -/
def mixC2Inv : Word := 0x319642B2D24D8EC3

/-- `count` rounds of `x = y ^ (x >> k)` from `x` (R95). -/
def unxsRounds (y : Word) (k : Nat) : Nat → Word → Word
  | 0, x => x
  | count + 1, x => unxsRounds y k count (y ^^^ (x >>> k))

/-- `unxs(y, k)` (R95): ceil(64/k) rounds from x = y. -/
def unxs (y : Word) (k : Nat) : Word := unxsRounds y k ((64 + k - 1) / k) y

/-- `M_inv` (R95). -/
def outputMixerInv (r : Word) : Word := unxs (unxs (unxs r 31 * mixC2Inv) 27 * mixC1Inv) 30

/-- The seed whose next NEXT gives the raw value `r` (R95). -/
def seedForRaw (r : Word) : Word := outputMixerInv r - gamma

end Sys2Proof.Machine
end

