-- ==== Sys2Proof/Machine/Session.lean ====
section
/-! DEFINITION. A requester's session with one instance: commands one at a time and their responses
(spec/10_state.md R25, spec/20_memory.md R44, spec/40_state_access.md R84). Claims are stated over it; nothing in the
machine uses it. -/

namespace Sys2Proof.Machine

/-- One command presented to the instance and run to its end. -/
def issue (c : Command) (s : State) : Result := step (present c s)

/-- The commands of a list, one after the other: the outcome after the last, or the first stop. -/
def session : List Command → State → Result
  | [], s => .next s
  | c :: cs, s =>
    match issue c s with
    | .next t => session cs t
    | .fault f => .fault f
    | .refused r => .refused r

/-- The responses of a session, in order, up to its end or its first stop. -/
def responses : List Command → State → List Response
  | [], _ => []
  | c :: cs, s =>
    match issue c s with
    | .next t => t.response.toList ++ responses cs t
    | .fault _ => []
    | .refused _ => []

/-- The operand check of an instruction (R142; R144: at most one a command): the error it raises, or none. -/
def operandError : Instr → Option Code
  | .construct _ => none
  | .reseed _ => none
  | .getstate => none
  | .next => none
  | .nextdouble => none
  | .range n => rangeError n
  | .randintU low high => intervalErrorU low high
  | .randintS low high => intervalErrorS low high
  | .toss => none

/-- R92: the commands that draw. -/
def isDrawing : Instr → Bool
  | .construct _ => false
  | .reseed _ => false
  | .getstate => false
  | .next => true
  | .nextdouble => true
  | .range _ => true
  | .randintU _ _ => true
  | .randintS _ _ => true
  | .toss => true

/-- R23: the word a seeding command writes to STATE. -/
def seedOf : Instr → Option Word
  | .construct seed => some seed
  | .reseed seed => some seed
  | .getstate => none
  | .next => none
  | .nextdouble => none
  | .range _ => none
  | .randintU _ _ => none
  | .randintS _ _ => none
  | .toss => none

/-- A command that draws successfully: legal, a drawing command, past its operand check. -/
def successfulDraw (c : Command) : Bool :=
  match decode c with
  | .ok i => isDrawing i && (operandError i).isNone
  | .error _ => false

/-- The word a command seeds STATE with, if it is CONSTRUCT or RESEED. -/
def commandSeed (c : Command) : Option Word :=
  match decode c with
  | .ok i => seedOf i
  | .error _ => none

/-- The number of successful draws in a list of commands. -/
def drawCount (cs : List Command) : Nat := cs.countP successfulDraw

end Sys2Proof.Machine
end

