-- ==== Sys2Proof/Safety.lean ====
section
/-! DEFINITION. What counts as a safe run: an instance that has been reset, a requester that keeps to the
one-command-at-a-time protocol (spec/20_memory.md R45, spec/70_reset_and_hazards.md R175), and the response rules of
spec/60_exceptions.md R140 and R143. -/

namespace Sys2Proof.Machine

/-- The instance has been reset, so STATE holds a value (R171). -/
abbrev State.Live (s : State) : Prop := s.STATE.isSome = true

/-- R140, R143: a response with a code other than OK carries RES = 0. -/
def Response.zeroOnError (r : Response) : Bool := r.code == .ok || r.res == 0

/-- The requester's request keeps to the protocol of R45. -/
def PortEvent.serialised : PortEvent → Bool
  | .reset => true
  | .command _ => true
  | .overlap _ _ => false

/-- Every request still to come keeps to the protocol of R45. -/
abbrev State.Serialised (s : State) : Prop := s.port.all PortEvent.serialised = true

/-- The invariant of a safe run: STATE holds a value, the requester keeps to the protocol, and a response shown is
zero on error. -/
abbrev State.Inv (s : State) : Prop :=
  s.Live ∧ s.Serialised ∧ s.response.all Response.zeroOnError = true

end Sys2Proof.Machine
end

