-- ==== Sys2Proof/Certificates/Slice0/Obligations.lean ====
section
/-! DEFINITION. The statements for the provers. Each docstring says which rule of spec/ it formalises. In all of them
the equation of a whole next state is also the frame: STATE, the port and the response are all there is. -/

open Sys2Proof Sys2Proof.Machine

/-! Reset, faults and outcomes -/

/-- R170: a reset sets STATE to 0 and nothing else, whatever STATE held, a first reset included, and the instance then
answers as one just given CONSTRUCT 0. No response of an earlier command is held (R172's table). -/
def Obligations.ResetSeedsZero : Prop :=
  State.reset.STATE = some 0 ∧
  (∀ (s : State) (rest : List PortEvent), s.port = .reset :: rest →
    step s = .next { STATE := some 0, port := rest, response := none }) ∧
  ∀ (s t u : State) (rest : List PortEvent), s.STATE.isSome = true → s.port = .reset :: rest →
    step s = .next t → exec (.construct 0) s = .next u → ∀ cs : List Command, responses cs t = responses cs u

/-- R148 and R171: before the first reset STATE holds no value, the two protocol violations fault, and a fault is never
cleared. (Which fault an overlap before the first reset is, is log entry 5 and not stated.) -/
def Obligations.ProtocolViolationsFault : Prop :=
  State.powerOn.STATE = none ∧
  (∀ (s : State) (first second : Command) (rest : List PortEvent), s.port = .overlap first second :: rest →
    (∃ f, step s = .fault f) ∧ (s.STATE.isSome = true → step s = .fault .overlappingCommands)) ∧
  (∀ (s : State) (c : Command) (rest : List PortEvent), s.STATE = none → s.port = .command c :: rest →
    step s = .fault .beforeReset) ∧
  (∀ (i : Instr) (s : State), s.STATE = none → exec i s = .fault .beforeReset) ∧
  ∀ (f : Fault) (n : Nat), Instance.advance^[n] (.fault f) = .fault f

/-- R156: every command ends in one of the three outcomes; a fault comes from a protocol violation only; nothing is
refused. -/
def Obligations.EveryCommandEndsInOneOfThreeOutcomes : Prop :=
  (∀ (s : State) (c : Command) (rest : List PortEvent) (x : Word), s.STATE = some x → s.port = .command c :: rest →
    ∃ t r, step s = .next t ∧ t.port = rest ∧ t.response = some r ∧
      ((r.code = .ok ∧ ∃ i, decode c = .ok i ∧ operandError i = none ∧
          t.STATE = some (match seedOf i with
            | some seed => seed
            | none => if isDrawing i then stateTransition x else x)) ∨
        (r.code ≠ .ok ∧ r.res = 0 ∧ t.STATE = s.STATE))) ∧
  (∀ s : State, (∃ f, step s = .fault f) ↔
    (s.STATE = none ∧ ∃ c rest, s.port = .command c :: rest) ∨
    ∃ first second rest, s.port = .overlap first second :: rest) ∧
  ∀ (s : State) (r : Refusal), step s ≠ .refused r

/-- The invariant of a safe run (R143, R171, R175) is kept by every step, from every state that meets it. -/
def Obligations.StepKeepsSafeRun : Prop :=
  ∀ s t : State, s.Inv → step s = .next t → t.Inv

/-- The state after reset meets the invariant of a safe run. -/
def Obligations.ResetIsSafe : Prop := State.reset.Inv

/-- R175 and R177: a requester that keeps to the protocol with an instance that has been reset never meets a stop,
however many commands it issues. -/
def Obligations.SafeRunsNeverStop : Prop :=
  ∀ (n : Nat) (s : State), s.Inv → ∃ t : State, Host.Core.run core n s = .next t ∧ t.Inv

/-- R155: with no request STATE keeps its value. That an idle step is a step, and shows no response, is the model's
choice (log entry 3). -/
def Obligations.IdleBlockKeepsSTATE : Prop :=
  ∀ s : State, s.port = [] → step s = .next { s with response := none }

/-! Encoding -/

/-- A step runs the decoded instruction (R60, R64, R65), at the port and where withFetchWord puts one. -/
def Obligations.StepRunsDecodedCommand : Prop :=
  (∀ (s : State) (c : Command) (i : Instr) (rest : List PortEvent), s.port = .command c :: rest → decode c = .ok i →
    step s = exec i { s with port := rest }) ∧
  ∀ (s : State) (nbits w : Nat) (i : Instr), decodeTableWord nbits w = some i →
    step (s.withFetchWord nbits w) = exec i s

/-- R63: the nine command words decode to their commands, written out from the table. -/
def Obligations.TableWordsDecode : Prop :=
  ∀ a b : Word,
    decode ⟨0b00000000, a, b⟩ = .ok (.construct a) ∧ decode ⟨0b00000001, a, b⟩ = .ok (.reseed a) ∧
    decode ⟨0b00000010, a, b⟩ = .ok .getstate ∧ decode ⟨0b00000011, a, b⟩ = .ok .next ∧
    decode ⟨0b00000100, a, b⟩ = .ok .nextdouble ∧ decode ⟨0b00000101, a, b⟩ = .ok (.range a) ∧
    decode ⟨0b00000110, a, b⟩ = .ok (.randintU a b) ∧ decode ⟨0b00010110, a, b⟩ = .ok (.randintS a b) ∧
    decode ⟨0b00000111, a, b⟩ = .ok .toss

/-- R64 and R141: decoding is total; exactly 247 command words are illegal, on the three grounds listed; each is
answered ILLEGAL_COMMAND with STATE as it was, whatever the operands. -/
def Obligations.IllegalWordsAreAnswered : Prop :=
  (∀ c : Command, (∃ e, decode c = .error e) ↔ c.cmd ∉ ([0x00, 0x01, 0x02, 0x03, 0x04, 0x05, 0x06, 0x16, 0x07] : List Byte)) ∧
  (∀ c : Command, (∃ e, decode c = .error e) ↔
    8 ≤ c.cmd.toNat % 16 ∨ (c.cmd.toNat / 16 % 2 = 1 ∧ c.cmd.toNat % 16 ≠ 6) ∨ c.cmd.toNat / 32 ≠ 0) ∧
  (∀ c : Command, c.wellFormed = true ↔ ∃ i, decode c = .ok i) ∧
  (∀ a b : Word, (Set.ncard { cmd : Byte | ∃ e, decode ⟨cmd, a, b⟩ = .error e }) = 247) ∧
  ∀ (s : State) (x : Word) (c : Command) (e : IllegalWord) (rest : List PortEvent),
    s.STATE = some x → s.port = .command c :: rest → decode c = .error e →
    step s = .next { STATE := some x, port := rest, response := some ⟨.illegalCommand, 0⟩ }

/-- Decode and encode agree (R62, R63, R65, R66): a triple decodes to an instruction exactly when it has that
instruction's command word and the operands that instruction reads, at every operand value; and so for the triple
numbered as one table word. -/
def Obligations.DecodeEncodeAgree : Prop :=
  ∀ (i : Instr) (c : Command), i.wellFormed = true →
    (decode c = .ok i ↔ c.cmd = (encode i).cmd ∧ (i.readsOPA = true → c.opa = (encode i).opa) ∧
      (i.readsOPB = true → c.opb = (encode i).opb)) ∧
    (decode c = .ok i ↔ decodeTableWord 136 c.toNumber = some i)

/-- The numbering of a triple as one table word drops no bit, and a table word of the command byte alone has operand
words of zeros. The numbering is the model's choice (log entry 4). -/
def Obligations.TableWordHoldsTheTriple : Prop :=
  (∀ c : Command, Command.ofTableWord 136 c.toNumber = c) ∧
  ∀ c : Command, Command.ofTableWord 8 c.toNumber = ⟨c.cmd, 0, 0⟩

/-- R62: an ignored operand may hold any value; and signedness is in the order check only, so where both readings are
ordered the two RANDINT commands do the same. -/
def Obligations.IgnoredOperandsHaveNoEffect : Prop :=
  (∀ (s : State) (rest : List PortEvent) (cmd : Byte) (a a' b b' : Word),
    cmd ∈ ([0x02, 0x03, 0x04, 0x07] : List Byte) →
    step { s with port := .command ⟨cmd, a, b⟩ :: rest } = step { s with port := .command ⟨cmd, a', b'⟩ :: rest }) ∧
  (∀ (s : State) (rest : List PortEvent) (cmd : Byte) (a b b' : Word),
    cmd ∈ ([0x00, 0x01, 0x05] : List Byte) →
    step { s with port := .command ⟨cmd, a, b⟩ :: rest } = step { s with port := .command ⟨cmd, a, b'⟩ :: rest }) ∧
  ∀ (s : State) (low high : Word), low.toNat ≤ high.toNat → sint low ≤ sint high →
    exec (.randintU low high) s = exec (.randintS low high) s

/-! The commands -/

/-- R80: CONSTRUCT. -/
def Obligations.ConstructSeedsSTATE : Prop :=
  ∀ (s : State) (x seed : Word), s.STATE = some x →
    exec (.construct seed) s = .next { s with STATE := some seed, response := some ⟨.ok, 0⟩ } ∧
    exec (.construct seed) s = exec (.reseed seed) s ∧
    (∀ a b : Word, responses [⟨0x00, seed, a⟩, ⟨0x02, a, b⟩] s = [⟨.ok, 0⟩, ⟨.ok, seed⟩]) ∧
    ∀ (b : Word) (rest : List PortEvent), s.port = .command ⟨0x00, seed, b⟩ :: rest →
      step s = .next { STATE := some seed, port := rest, response := some ⟨.ok, 0⟩ }

/-- R81: RESEED; the prior position is discarded, and the stream of a seed starts over. -/
def Obligations.ReseedSeedsSTATE : Prop :=
  (∀ (s : State) (x seed : Word), s.STATE = some x →
    exec (.reseed seed) s = .next { s with STATE := some seed, response := some ⟨.ok, 0⟩ } ∧
    (∀ (b : Word) (rest : List PortEvent), s.port = .command ⟨0x01, seed, b⟩ :: rest →
      step s = .next { STATE := some seed, port := rest, response := some ⟨.ok, 0⟩ })) ∧
  (∀ (s t : State) (x : Word), s.STATE = some x → exec (.reseed x) s = .next t →
    ∀ cs : List Command, responses cs t = responses cs s) ∧
  ∀ (s t : State) (x y seed b : Word) (cs : List Command), s.STATE = some x → t.STATE = some y →
    responses (⟨0x00, seed, b⟩ :: cs) s = responses (⟨0x01, seed, b⟩ :: cs) t

/-- R82: GETSTATE; it does not draw, and after k successful draws from STATE = x it returns x + k*GAMMA. -/
def Obligations.GetStateReturnsSTATE : Prop :=
  ∀ (s : State) (x : Word), s.STATE = some x →
    exec .getstate s = .next { s with response := some ⟨.ok, x⟩ } ∧
    (∀ (a b : Word) (rest : List PortEvent), s.port = .command ⟨0x02, a, b⟩ :: rest →
      step s = .next { STATE := some x, port := rest, response := some ⟨.ok, x⟩ }) ∧
    (∀ a b : Word, responses [⟨0x02, a, b⟩, ⟨0x02, a, b⟩] s = [⟨.ok, x⟩, ⟨.ok, x⟩]) ∧
    (∀ (cmd : Byte) (seed a b : Word), cmd ∈ ([0x00, 0x01] : List Byte) →
      responses [⟨cmd, seed, b⟩, ⟨0x02, a, b⟩] s = [⟨.ok, 0⟩, ⟨.ok, seed⟩]) ∧
    ∀ cs : List Command, (∀ c ∈ cs, successfulDraw c = true) → ∃ t u : State, session cs s = .next t ∧
      exec .getstate t = .next u ∧ u.response = some ⟨.ok, x + BitVec.ofNat 64 cs.length * 0x9E3779B97F4A7C15⟩

/-- R93: NEXT, its corner cases and its example. -/
def Obligations.NextReturnsTheRawDraw : Prop :=
  (∀ (s : State) (x : Word), s.STATE = some x →
    exec .next s = .next { s with
      STATE := some (x + 0x9E3779B97F4A7C15), response := some ⟨.ok, outputMixer (x + 0x9E3779B97F4A7C15)⟩ } ∧
    ∀ (a b : Word) (rest : List PortEvent), s.port = .command ⟨0x03, a, b⟩ :: rest →
      step s = .next { STATE := some (x + 0x9E3779B97F4A7C15), port := rest,
                       response := some ⟨.ok, outputMixer (x + 0x9E3779B97F4A7C15)⟩ }) ∧
  ((0x61C8864680B583EB : Word) + 0x9E3779B97F4A7C15 = 0 ∧ outputMixer 0 = 0) ∧
  (0xFFFFFFFFFFFFFFFF : Word) + 0x9E3779B97F4A7C15 = 0x9E3779B97F4A7C14 ∧
  outputMixer (0 + 0x9E3779B97F4A7C15) = 0xE220A8397B1DCDAF ∧
  ∀ v : Word, ∃ x : Word, outputMixer (x + 0x9E3779B97F4A7C15) = v

/-- R112: NEXTDOUBLE, its corner cases and its example. -/
def Obligations.NextDoubleConvertsTheRawDraw : Prop :=
  (∀ (s : State) (x r : Word), s.STATE = some x → r = outputMixer (x + 0x9E3779B97F4A7C15) →
    exec .nextdouble s = .next { s with
      STATE := some (x + 0x9E3779B97F4A7C15), response := some ⟨.ok, toBinary64 (r.toNat / 2 ^ 11)⟩ } ∧
    ∀ (a b : Word) (rest : List PortEvent), s.port = .command ⟨0x04, a, b⟩ :: rest →
      step s = .next { STATE := some (x + 0x9E3779B97F4A7C15), port := rest,
                       response := some ⟨.ok, toBinary64 (r.toNat / 2 ^ 11)⟩ }) ∧
  (∀ r : Word, r.toNat < 2 ^ 11 → toBinary64 (r.toNat / 2 ^ 11) = 0x0000000000000000) ∧
  (∀ r : Word, 2 ^ 11 ≤ r.toNat → r.toNat < 2 ^ 12 → toBinary64 (r.toNat / 2 ^ 11) = 0x3CA0000000000000) ∧
  (∀ r : Word, 0xFFFFFFFFFFFFF800 ≤ r.toNat → toBinary64 (r.toNat / 2 ^ 11) = 0x3FEFFFFFFFFFFFFF) ∧
  toBinary64 (0x8000000000000000 / 2 ^ 11) = 0x3FE0000000000000 ∧
  (∀ r : Word, binary64Sign (toBinary64 (r.toNat / 2 ^ 11)) = false ∧
    binary64Exponent (toBinary64 (r.toNat / 2 ^ 11)) ≤ 1022 ∧
    (binary64Exponent (toBinary64 (r.toNat / 2 ^ 11)) = 0 → toBinary64 (r.toNat / 2 ^ 11) = 0) ∧
    (toBinary64 (r.toNat / 2 ^ 11)).toNat ≤ 0x3FEFFFFFFFFFFFFF) ∧
  toBinary64 ((outputMixer 0x9E3779B97F4A7C15).toNat / 2 ^ 11) = 0x3FEC4415072F63B9

/-- R121: RANGE, its error, its corner cases and its example. -/
def Obligations.RangeReducesTheRawDraw : Prop :=
  (∀ (s : State) (x : Word), s.STATE = some x →
    exec (.range 0) s = .next { s with response := some ⟨.invalidRange, 0⟩ }) ∧
  (∀ (s : State) (x n r : Word), s.STATE = some x → n ≠ 0 → r = outputMixer (x + 0x9E3779B97F4A7C15) →
    exec (.range n) s = .next { s with
      STATE := some (x + 0x9E3779B97F4A7C15), response := some ⟨.ok, BitVec.ofNat 64 (r.toNat % n.toNat)⟩ }) ∧
  (∀ (s : State) (x n b : Word) (rest : List PortEvent), s.STATE = some x → s.port = .command ⟨0x05, n, b⟩ :: rest →
    step s = exec (.range n) { s with port := rest }) ∧
  (∀ r n : Word, n.toNat = 1 → BitVec.ofNat 64 (r.toNat % n.toNat) = (0 : Word)) ∧
  (∀ (r n : Word) (k : Nat), k < 64 → n.toNat = 2 ^ k →
    BitVec.ofNat 64 (r.toNat % n.toNat) = (r.extractLsb' 0 k).setWidth 64) ∧
  (∀ r n : Word, n = 0xFFFFFFFFFFFFFFFF →
    BitVec.ofNat 64 (r.toNat % n.toNat) = if r = 0xFFFFFFFFFFFFFFFF then 0 else r) ∧
  (∀ r n : Word, r.toNat < n.toNat → BitVec.ofNat 64 (r.toNat % n.toNat) = r) ∧
  exec (.range 10) (State.reset.writeSTATE 42) =
    .next { STATE := some 0x9E3779B97F4A7C3F, port := [], response := some ⟨.ok, 3⟩ }

/-- R125: RANDINT.U and RANDINT.S, their error and their corner cases. -/
def Obligations.RandIntDrawsFromTheInterval : Prop :=
  (∀ (s : State) (x low high r : Word), s.STATE = some x → r = outputMixer (x + 0x9E3779B97F4A7C15) →
    (low.toNat ≤ high.toNat → exec (.randintU low high) s = .next { s with
      STATE := some (x + 0x9E3779B97F4A7C15),
      response := some ⟨.ok, low + BitVec.ofNat 64 (r.toNat % ((high - low).toNat + 1))⟩ }) ∧
    (high.toNat < low.toNat →
      exec (.randintU low high) s = .next { s with response := some ⟨.invalidInterval, 0⟩ }) ∧
    (low.toInt ≤ high.toInt → exec (.randintS low high) s = .next { s with
      STATE := some (x + 0x9E3779B97F4A7C15),
      response := some ⟨.ok, low + BitVec.ofNat 64 (r.toNat % ((high - low).toNat + 1))⟩ }) ∧
    (high.toInt < low.toInt →
      exec (.randintS low high) s = .next { s with response := some ⟨.invalidInterval, 0⟩ })) ∧
  (∀ (s : State) (x low high : Word) (rest : List PortEvent), s.STATE = some x →
    (s.port = .command ⟨0x06, low, high⟩ :: rest → step s = exec (.randintU low high) { s with port := rest }) ∧
    (s.port = .command ⟨0x16, low, high⟩ :: rest → step s = exec (.randintS low high) { s with port := rest })) ∧
  (∀ r k : Word, intoInterval k k r = k) ∧
  (∀ r : Word, intoInterval 0 0xFFFFFFFFFFFFFFFF r = r) ∧
  (∀ r : Word, intoInterval 0x8000000000000000 0x7FFFFFFFFFFFFFFF r = 0x8000000000000000 + r) ∧
  (¬ (0xFFFFFFFFFFFFFFFF : Word).toNat ≤ (0 : Word).toNat ∧ span 0xFFFFFFFFFFFFFFFF 0 = 2 ∧
    sint 0xFFFFFFFFFFFFFFFF = -1 ∧
    ∀ r : Word, intoInterval 0xFFFFFFFFFFFFFFFF 0 r = 0xFFFFFFFFFFFFFFFF ∨ intoInterval 0xFFFFFFFFFFFFFFFF 0 r = 0) ∧
  (∀ low high r n : Word, n.toNat = span low high →
    intoInterval low high r = BitVec.ofNat 64 (r.toNat % n.toNat) + low) ∧
  exec (.randintS (-5) 5) (State.reset.writeSTATE 0x9E3779B97F4A7C3F) =
    .next { STATE := some 0x3C6EF372FE94F854, port := [], response := some ⟨.ok, 0⟩ }

/-- R128: TOSS, and its agreement with RANGE 2 from every STATE. -/
def Obligations.TossReturnsTheLowBit : Prop :=
  (∀ (s : State) (x r : Word), s.STATE = some x → r = outputMixer (x + 0x9E3779B97F4A7C15) →
    exec .toss s = .next { s with
      STATE := some (x + 0x9E3779B97F4A7C15), response := some ⟨.ok, (r.extractLsb' 0 1).setWidth 64⟩ } ∧
    (∀ (a b : Word) (rest : List PortEvent), s.port = .command ⟨0x07, a, b⟩ :: rest →
      step s = .next { STATE := some (x + 0x9E3779B97F4A7C15), port := rest,
                       response := some ⟨.ok, BitVec.ofNat 64 (r.toNat % 2)⟩ })) ∧
  (∀ s : State, exec .toss s = exec (.range 2) s) ∧
  responses [⟨0x07, 0, 0⟩] State.reset = [⟨.ok, 1⟩]

/-! The state transition and the mixer -/

/-- R90: T adds the odd constant GAMMA and wraps, and a draw changes STATE by T only. -/
def Obligations.TransitionAddsGamma : Prop :=
  (∀ s : Word, (stateTransition s).toNat = (s.toNat + 0x9E3779B97F4A7C15) % 2 ^ 64) ∧
  gamma.toNat % 2 = 1 ∧
  ∀ (i : Instr) (s : State) (x : Word), s.STATE = some x → isDrawing i = true → operandError i = none →
    ∃ t, exec i s = .next t ∧ t.STATE = some (stateTransition x)

/-- R91 and R97: the mixer's steps in their order, on the mathematical integers, and the worked trace. -/
def Obligations.MixerFollowsItsSteps : Prop :=
  (∀ z z1 z2 : Nat, z < 2 ^ 64 →
    z1 = ((z ^^^ (z / 2 ^ 30)) * 0xBF58476D1CE4E5B9) % 2 ^ 64 →
    z2 = ((z1 ^^^ (z1 / 2 ^ 27)) * 0x94D049BB133111EB) % 2 ^ 64 →
    (outputMixer (BitVec.ofNat 64 z)).toNat = z2 ^^^ (z2 / 2 ^ 31)) ∧
  xorShift 0x9E3779B97F4A7C15 30 = 0x9E3779BB07979AF0 ∧ 0x9E3779BB07979AF0 * mixC1 = 0x6F68261B57E7A770 ∧
  xorShift 0x6F68261B57E7A770 27 = 0x6F682616BAE3641A ∧ 0x6F682616BAE3641A * mixC2 = 0xE220A838BF5C9DDE ∧
  xorShift 0xE220A838BF5C9DDE 31 = 0xE220A8397B1DCDAF ∧ outputMixer 0x9E3779B97F4A7C15 = 16294208416658607535

/-- R95: each step of the mixer is invertible, the mixer is a bijection, the spec's inverse inverts it on both sides,
and the seed it gives makes NEXT return the wanted raw value. -/
def Obligations.MixerIsBijective : Prop :=
  (∀ k : Nat, 1 ≤ k → Function.Bijective fun z => xorShift z k) ∧
  (∀ c : Word, c.toNat % 2 = 1 → Function.Bijective fun z => z * c) ∧
  Function.Bijective outputMixer ∧
  mixC1 * mixC1Inv = 1 ∧ mixC2 * mixC2Inv = 1 ∧
  (∀ r : Word, outputMixer (outputMixerInv r) = r ∧ outputMixerInv (outputMixer r) = r) ∧
  ∀ (s : State) (r : Word), s.STATE = some (seedForRaw r) →
    ∃ t, exec .next s = .next t ∧ t.response = some ⟨.ok, r⟩

/-- R94: the period of the states, and of the raw outputs, is exactly 2^64, and NEXT gives that stream. -/
def Obligations.PeriodIsTwoToThe64 : Prop :=
  (∀ (x : Word) (i j : Nat), i < 2 ^ 64 → j < 2 ^ 64 → stateTransition^[i] x = stateTransition^[j] x → i = j) ∧
  (∀ (x : Word) (k : Nat), stateTransition^[k] x = x ↔ 2 ^ 64 ∣ k) ∧
  (∀ (x : Word) (p : Nat),
    (∀ k : Nat, outputMixer (stateTransition^[k + p] x) = outputMixer (stateTransition^[k] x)) ↔ 2 ^ 64 ∣ p) ∧
  ∀ (s : State) (x a b : Word) (n : Nat), s.STATE = some x →
    responses (List.replicate n ⟨0x03, a, b⟩) s =
      (List.range n).map fun k => ⟨.ok, outputMixer (stateTransition^[k + 1] x)⟩

/-- R96: one seed and one command sequence give one sequence of responses; distinct STATEs stay distinct along a
sequence that does not seed, and their NEXT results differ at every position. -/
def Obligations.StreamsAreDeterministicAndSeparate : Prop :=
  (∀ (s t : State) (cs : List Command), s.STATE = t.STATE → responses cs s = responses cs t) ∧
  ∀ (s t : State) (x y a b : Word) (cs : List Command), s.STATE = some x → t.STATE = some y → x ≠ y →
    (∀ c ∈ cs, commandSeed c = none) →
    ∃ s' t' x' y' v w, session cs s = .next s' ∧ session cs t = .next t' ∧
      s'.STATE = some x' ∧ t'.STATE = some y' ∧ x' ≠ y' ∧
      responses [⟨0x03, a, b⟩] s' = [⟨.ok, v⟩] ∧ responses [⟨0x03, a, b⟩] t' = [⟨.ok, w⟩] ∧ v ≠ w

/-- R25: STATE is the last seed plus GAMMA times the number of successful draws since, whatever came before. -/
def Obligations.STATECountsTheDraws : Prop :=
  (∀ (s : State) (x : Word) (cs : List Command), s.STATE = some x → (∀ c ∈ cs, commandSeed c = none) →
    ∃ t, session cs s = .next t ∧ t.port = s.port ∧
      t.STATE = some (x + BitVec.ofNat 64 (drawCount cs) * 0x9E3779B97F4A7C15)) ∧
  ∀ (s : State) (x seed : Word) (before after : List Command) (c : Command), s.STATE = some x →
    commandSeed c = some seed → (∀ d ∈ after, commandSeed d = none) →
    ∃ t, session (before ++ c :: after) s = .next t ∧ t.port = s.port ∧
      t.STATE = some (seed + BitVec.ofNat 64 (drawCount after) * 0x9E3779B97F4A7C15)

/-- R23: which commands write STATE, and what they write; no other command and no error response writes it. -/
def Obligations.OnlyListedCommandsWriteSTATE : Prop :=
  ∀ (s : State) (x : Word) (c : Command) (rest : List PortEvent), s.STATE = some x → s.port = .command c :: rest →
    ∃ t r, step s = .next t ∧ t.response = some r ∧
      ((∃ seed, (decode c = .ok (.construct seed) ∨ decode c = .ok (.reseed seed)) ∧ seed = c.opa ∧
          t.STATE = some c.opa) ∨
        (successfulDraw c = true ∧ r.code = .ok ∧ t.STATE = some (stateTransition x)) ∨
        (commandSeed c = none ∧ successfulDraw c = false ∧ t.STATE = some x ∧
          (r.code = .ok → decode c = .ok .getstate)))

/-- R24: a command that is neither GETSTATE nor a successful draw answers the same whatever STATE holds. -/
def Obligations.OnlyGetStateAndDrawsRevealSTATE : Prop :=
  ∀ (s t : State) (x y : Word) (c : Command), s.STATE = some x → t.STATE = some y →
    decode c ≠ .ok .getstate → successfulDraw c = false → responses [c] s = responses [c] t

/-! Errors -/

/-- R140, R142 and R144: the code values, and each error code has exactly its cause, the decode error first. -/
def Obligations.EachErrorCodeHasItsCause : Prop :=
  (Code.ok.bits = 0 ∧ Code.illegalCommand.bits = 1 ∧ Code.invalidRange.bits = 2 ∧ Code.invalidInterval.bits = 3) ∧
  (∀ b : BitVec 2, (Code.ofBits b).bits = b) ∧ (∀ c : Code, Code.ofBits c.bits = c) ∧
  ∀ (s : State) (x : Word) (c : Command) (rest : List PortEvent), s.STATE = some x → s.port = .command c :: rest →
    ∃ t r, step s = .next t ∧ t.response = some r ∧
      (r.code = .illegalCommand ↔ ∃ e, decode c = .error e) ∧
      (r.code = .invalidRange ↔ c.cmd = 0x05 ∧ c.opa = 0) ∧
      (r.code = .invalidInterval ↔
        (c.cmd = 0x06 ∧ c.opb.toNat < c.opa.toNat) ∨ (c.cmd = 0x16 ∧ c.opb.toInt < c.opa.toInt)) ∧
      (r.code ≠ .ok → r.res = 0 ∧ t.STATE = some x)

/-- R143: a command that returns a code other than OK leaves STATE as it was, returns RES = 0, and every later command
is answered as if it had never been issued. -/
def Obligations.ErrorsLeaveNoResidue : Prop :=
  ∀ (s t : State) (r : Response), step s = .next t → t.response = some r → r.code ≠ .ok →
    t.STATE = s.STATE ∧ r.res = 0 ∧ ∀ cs : List Command, responses cs t = responses cs s

/-- R26: a response is not held: no step and no command depends on the response shown before it. -/
def Obligations.ResponseIsNotHeld : Prop :=
  ∀ (s : State) (r : Option Response), step { s with response := r } = step s ∧
    ∀ i : Instr, exec i { s with response := r } = exec i s

/-! The bounded integer sampler -/

/-- R122: a successful RANGE n lies in [0, n), and RANGE 1 returns 0. -/
def Obligations.RangeStaysBelowItsBound : Prop :=
  (∀ (s : State) (x n : Word), s.STATE = some x → n ≠ 0 →
    ∃ t v, exec (.range n) s = .next t ∧ t.response = some ⟨.ok, v⟩ ∧ v.toNat < n.toNat) ∧
  ∀ (s : State) (x : Word), s.STATE = some x → ∃ t, exec (.range 1) s = .next t ∧ t.response = some ⟨.ok, 0⟩

/-- R127: a successful RANDINT lies in [low, high] in the command's reading, and k, k returns k. -/
def Obligations.RandIntStaysInItsInterval : Prop :=
  (∀ (s : State) (x low high : Word), s.STATE = some x → low.toNat ≤ high.toNat →
    ∃ t v, exec (.randintU low high) s = .next t ∧ t.response = some ⟨.ok, v⟩ ∧
      low.toNat ≤ v.toNat ∧ v.toNat ≤ high.toNat) ∧
  (∀ (s : State) (x low high : Word), s.STATE = some x → low.toInt ≤ high.toInt →
    ∃ t v, exec (.randintS low high) s = .next t ∧ t.response = some ⟨.ok, v⟩ ∧
      low.toInt ≤ v.toInt ∧ v.toInt ≤ high.toInt) ∧
  ∀ (s : State) (x k : Word), s.STATE = some x →
    (∃ t, exec (.randintU k k) s = .next t ∧ t.response = some ⟨.ok, k⟩) ∧
    ∃ t, exec (.randintS k k) s = .next t ∧ t.response = some ⟨.ok, k⟩

/-- R124: the span of an ordered interval, in either reading, is the number of its values. -/
def Obligations.SpanCountsTheInterval : Prop :=
  (∀ low high : Word, 1 ≤ span low high ∧ span low high ≤ 2 ^ 64) ∧
  (∀ low high : Word, low.toNat ≤ high.toNat → (span low high : Int) = (high.toNat : Int) - low.toNat + 1 ∧
    Set.ncard { v : Word | low.toNat ≤ v.toNat ∧ v.toNat ≤ high.toNat } = span low high) ∧
  ∀ low high : Word, sint low ≤ sint high → (span low high : Int) = sint high - sint low + 1 ∧
    Set.ncard { v : Word | sint low ≤ sint v ∧ sint v ≤ sint high } = span low high

/-- R126: on the full span the result is low + raw, from one draw, never an error, and every value is reachable. -/
def Obligations.FullSpanAddsTheRawDraw : Prop :=
  ∀ low high : Word, (high - low).toNat = 2 ^ 64 - 1 →
    (∀ (s : State) (x : Word), s.STATE = some x →
      (low.toNat ≤ high.toNat → exec (.randintU low high) s = .next { s with
        STATE := some (stateTransition x), response := some ⟨.ok, low + outputMixer (stateTransition x)⟩ }) ∧
      (sint low ≤ sint high → exec (.randintS low high) s = .next { s with
        STATE := some (stateTransition x), response := some ⟨.ok, low + outputMixer (stateTransition x)⟩ })) ∧
    ∀ v : Word, ∃ x : Word, low + outputMixer (stateTransition x) = v

/-- R123 (with R120): how many raw values, and how many values of STATE, give each residue; the reduction is unbiased
exactly for powers of two. -/
def Obligations.ReductionBiasIsExact : Prop :=
  (∀ n v : Nat, 1 ≤ n → n ≤ 2 ^ 64 → v < n →
    Set.ncard { r : Word | reduce r n = v } = 2 ^ 64 / n + if v < 2 ^ 64 % n then 1 else 0) ∧
  (∀ n v b : Word, v.toNat < n.toNat →
    Set.ncard { x : Word | responses [⟨0x05, n, b⟩] (State.reset.writeSTATE x) = [⟨.ok, v⟩] } =
      2 ^ 64 / n.toNat + if v.toNat < 2 ^ 64 % n.toNat then 1 else 0) ∧
  ∀ n : Nat, 1 ≤ n → n ≤ 2 ^ 64 →
    ((∀ v w : Nat, v < n → w < n → Set.ncard { r : Word | reduce r n = v } = Set.ncard { r : Word | reduce r n = w }) ↔
      ∃ k : Nat, n = 2 ^ k)

/-- R129: over the 2^64 states TOSS returns 0 exactly 2^63 times and 1 exactly 2^63 times. -/
def Obligations.TossIsBalanced : Prop :=
  ∀ a b : Word,
    Set.ncard { x : Word | responses [⟨0x07, a, b⟩] (State.reset.writeSTATE x) = [⟨.ok, 0⟩] } = 2 ^ 63 ∧
    Set.ncard { x : Word | responses [⟨0x07, a, b⟩] (State.reset.writeSTATE x) = [⟨.ok, 1⟩] } = 2 ^ 63

/-! The uniform double converter -/

/-- R110 and R111: the pattern is +0.0 for m = 0 and otherwise the normal binary64 number of the stated fields, and
its value is exactly m * 2^-53. -/
def Obligations.DoubleEncodingIsExact : Prop :=
  toBinary64 0 = 0 ∧
  (∀ m : Nat, m < 2 ^ 53 → binary64Value (toBinary64 m) = some ((m : ℚ) / 2 ^ 53)) ∧
  (∀ m e : Nat, 0 < m → m < 2 ^ 53 → 2 ^ e ≤ m → m < 2 ^ (e + 1) →
    binary64Sign (toBinary64 m) = false ∧ binary64Exponent (toBinary64 m) = e + 970 ∧
    970 ≤ e + 970 ∧ e + 970 ≤ 1022 ∧ binary64Fraction (toBinary64 m) = (m - 2 ^ e) * 2 ^ (52 - e)) ∧
  ∀ r : Word, topBits r = r.toNat / 2 ^ 11 ∧ topBits r ≤ 2 ^ 53 - 1 ∧
    binary64Value (toBinary64 (topBits r)) = some (((r.toNat / 2 ^ 11 : Nat) : ℚ) / 2 ^ 53)

/-- R113: every NEXTDOUBLE result lies in [0, 1 - 2^-53]; each multiple of 2^-53 there comes from exactly 2^11 raw
values, and some STATE gives it. -/
def Obligations.DoubleStaysBelowOne : Prop :=
  (∀ (s : State) (x : Word), s.STATE = some x → ∃ t w v, exec .nextdouble s = .next t ∧
    t.response = some ⟨.ok, w⟩ ∧ binary64Value w = some v ∧ 0 ≤ v ∧ v ≤ 1 - 1 / 2 ^ 53 ∧ v < 1) ∧
  (∀ m : Nat, m < 2 ^ 53 →
    Set.ncard { r : Word | binary64Value (toBinary64 (topBits r)) = some ((m : ℚ) / 2 ^ 53) } = 2 ^ 11) ∧
  ∀ m : Nat, m < 2 ^ 53 → ∃ (x w : Word),
    responses [⟨0x04, 0, 0⟩] (State.reset.writeSTATE x) = [⟨.ok, w⟩] ∧
    binary64Value w = some ((m : ℚ) / 2 ^ 53)

/-! Sessions, checkpoints, instances -/

/-- R44: the commands at the port run in their order, each on the STATE its predecessor left, as a session does. -/
def Obligations.PortRunsCommandsInOrder : Prop :=
  (∀ (cs : List Command) (s : State) (rest : List PortEvent),
    Host.Core.run core cs.length { s with port := cs.map PortEvent.command ++ rest } =
      session cs { s with port := rest }) ∧
  ∀ (s : State) (x a b : Word) (c : Command) (rest : List PortEvent), s.STATE = some x → successfulDraw c = true →
    s.port = .command c :: .command ⟨0x02, a, b⟩ :: rest →
    Host.Core.run core 2 s =
      .next { STATE := some (stateTransition x), port := rest, response := some ⟨.ok, stateTransition x⟩ }

/-- R84: RESEED of the word a GETSTATE returned puts an instance, this or another, where it was at that GETSTATE. -/
def Obligations.CheckpointRestoresTheStream : Prop :=
  ∀ (s t : State) (x y a b : Word), s.STATE = some x → t.STATE = some y →
    ∃ s' t' v, issue ⟨0x02, a, b⟩ s = .next s' ∧ s'.response = some ⟨.ok, v⟩ ∧ issue ⟨0x01, v, b⟩ t = .next t' ∧
      t'.STATE = s'.STATE ∧ ∀ cs : List Command, responses cs t' = responses cs s'

/-- R85: GETSTATE right after CONSTRUCT s returns s, and any successful draw changes what GETSTATE returns. -/
def Obligations.DrawsChangeWhatGetStateReturns : Prop :=
  (∀ (s : State) (x seed a b : Word), s.STATE = some x →
    responses [⟨0x00, seed, b⟩, ⟨0x02, a, b⟩] s = [⟨.ok, 0⟩, ⟨.ok, seed⟩]) ∧
  ∀ (s : State) (x a b : Word) (c : Command), s.STATE = some x → successfulDraw c = true →
    ∃ r y, responses [⟨0x02, a, b⟩, c, ⟨0x02, a, b⟩] s = [⟨.ok, x⟩, r, ⟨.ok, y⟩] ∧ y ≠ x

/-- R42: a checkpoint copy in any byte order, and in the environment's own, restores the word GETSTATE returned. -/
def Obligations.CheckpointBytesRestoreTheWord : Prop :=
  (∀ (o : Equiv.Perm (Fin 8)) (v : Word), restoreBytes o (storeBytes o v) = v) ∧
  ∀ v : Word, checkpointWord (checkpointBytes v) = v

/-- R28 and R46: what one instance does leaves every other as it was, depends on that instance alone, and the order of
what two different instances do does not matter. -/
def Obligations.InstancesShareNothing : Prop :=
  (∀ (b : Bank) (j k : Nat) (e : PortEvent), j ≠ k → (b.advance k)[j]? = b[j]? ∧ (b.receive k e)[j]? = b[j]?) ∧
  (∀ (b : Bank) (k : Nat), (b.advance k)[k]? = b[k]?.map Instance.advance) ∧
  ∀ (b : Bank) (j k : Nat) (e : PortEvent), j ≠ k →
    (b.advance j).advance k = (b.advance k).advance j ∧ (b.advance j).receive k e = (b.receive k e).advance j

/-- R83: a seed of any width reaches the block as its low 64 bits, and the block reports no error for it. -/
def Obligations.WideSeedsAreMasked : Prop :=
  ∀ (v : Nat) (s : State) (x : Word), s.STATE = some x → (driveSeed v).toNat = v % 2 ^ 64 ∧
    ∀ i ∈ [Instr.construct (driveSeed v), Instr.reseed (driveSeed v)],
      exec i s = .next { s with STATE := some (BitVec.ofNat 64 v), response := some ⟨.ok, 0⟩ }

/-! The assembler -/

/-- R66 and `.CMD` of R67: for every literal in the range of its command the line is exactly its triple, which decodes
to that instruction, and for every literal outside the range it is an assembler error. An operand is the word of that
number; a negative one of RANDINT.S is its two's-complement word. Log entry 13 reads RANDINT.S's range as -2^63 to
2^64-1, and the range of `.CMD`'s byte as 0 to 2^8-1. -/
def Obligations.LinesAssembleToTheirTriples : Prop :=
  ((∀ v : Int, literalValue (.decimal v) = v) ∧ ∀ n : Nat, literalValue (.hex n) = n) ∧
  (∀ l : Literal, 0 ≤ literalValue l → literalValue l < 2 ^ 64 → ∃ w : Word, (w.toNat : Int) = literalValue l ∧
    (assemble (.construct (some l)) = .ok ⟨0x00, w, 0⟩ ∧ decode ⟨0x00, w, 0⟩ = .ok (.construct w)) ∧
    (assemble (.reseed l) = .ok ⟨0x01, w, 0⟩ ∧ decode ⟨0x01, w, 0⟩ = .ok (.reseed w)) ∧
    (assemble (.range l) = .ok ⟨0x05, w, 0⟩ ∧ decode ⟨0x05, w, 0⟩ = .ok (.range w))) ∧
  (∀ l : Literal, literalValue l < 0 ∨ 2 ^ 64 ≤ literalValue l →
    ∀ line ∈ [AsmLine.construct (some l), .reseed l, .range l], assemble line = .error .literalOutOfRange) ∧
  (∀ low high : Literal, 0 ≤ literalValue low → literalValue low < 2 ^ 64 →
    0 ≤ literalValue high → literalValue high < 2 ^ 64 →
    ∃ x y : Word, (x.toNat : Int) = literalValue low ∧ (y.toNat : Int) = literalValue high ∧
      assemble (.randintU low high) = .ok ⟨0x06, x, y⟩ ∧ decode ⟨0x06, x, y⟩ = .ok (.randintU x y)) ∧
  (∀ low high : Literal,
    literalValue low < 0 ∨ 2 ^ 64 ≤ literalValue low ∨ literalValue high < 0 ∨ 2 ^ 64 ≤ literalValue high →
    assemble (.randintU low high) = .error .literalOutOfRange) ∧
  (∀ low high : Literal, -2 ^ 63 ≤ literalValue low → literalValue low < 2 ^ 64 →
    -2 ^ 63 ≤ literalValue high → literalValue high < 2 ^ 64 →
    ∃ x y : Word, (0 ≤ literalValue low → (x.toNat : Int) = literalValue low) ∧
      (literalValue low < 0 → x.toInt = literalValue low) ∧
      (0 ≤ literalValue high → (y.toNat : Int) = literalValue high) ∧
      (literalValue high < 0 → y.toInt = literalValue high) ∧
      assemble (.randintS low high) = .ok ⟨0x16, x, y⟩ ∧ decode ⟨0x16, x, y⟩ = .ok (.randintS x y)) ∧
  (∀ low high : Literal, literalValue low < -2 ^ 63 ∨ 2 ^ 64 ≤ literalValue low ∨
      literalValue high < -2 ^ 63 ∨ 2 ^ 64 ≤ literalValue high →
    assemble (.randintS low high) = .error .literalOutOfRange) ∧
  (∀ byte a b : Literal, 0 ≤ literalValue byte → literalValue byte < 2 ^ 8 →
    0 ≤ literalValue a → literalValue a < 2 ^ 64 → 0 ≤ literalValue b → literalValue b < 2 ^ 64 →
    ∃ c : Command, (c.cmd.toNat : Int) = literalValue byte ∧ (c.opa.toNat : Int) = literalValue a ∧
      (c.opb.toNat : Int) = literalValue b ∧ assemble (.raw byte a b) = .ok c) ∧
  (∀ byte a b : Literal, literalValue byte < 0 ∨ 2 ^ 8 ≤ literalValue byte ∨ literalValue a < 0 ∨
      2 ^ 64 ≤ literalValue a ∨ literalValue b < 0 ∨ 2 ^ 64 ≤ literalValue b →
    assemble (.raw byte a b) = .error .literalOutOfRange) ∧
  (assemble .getstate = .ok ⟨0x02, 0, 0⟩ ∧ decode ⟨0x02, 0, 0⟩ = .ok .getstate) ∧
  (assemble .next = .ok ⟨0x03, 0, 0⟩ ∧ decode ⟨0x03, 0, 0⟩ = .ok .next) ∧
  (assemble .nextdouble = .ok ⟨0x04, 0, 0⟩ ∧ decode ⟨0x04, 0, 0⟩ = .ok .nextdouble) ∧
  (assemble .toss = .ok ⟨0x07, 0, 0⟩ ∧ decode ⟨0x07, 0, 0⟩ = .ok .toss)

/-- R67: CONSTRUCT with no operand is CONSTRUCT 0, and `.CMD` writes any triple. -/
def Obligations.PseudoInstructionsAssemble : Prop :=
  assemble (.construct none) = assemble (.construct (some (.decimal 0))) ∧
  ∀ c : Command, assemble (.raw (.hex c.cmd.toNat) (.hex c.opa.toNat) (.hex c.opb.toNat)) = .ok c

/-- R68: the hexadecimal text of a triple has 36 characters, and distinct triples have distinct texts. -/
def Obligations.TripleTextIsFaithful : Prop :=
  (∀ c : Command, (commandText c).length = 36) ∧ Function.Injective commandText
end

