-- ==== Sys2Proof/Laws/Arithmetic.lean ====
section
/-! SUPPORT. The constants and operations as natural numbers, so that no proof has to unfold a 64-bit literal (an
unfolding that compares two open terms with such a literal in them can fill the memory: rewrite with these, or
generalize the operation first). -/

namespace Sys2Proof.Machine

theorem gamma_toNat : gamma.toNat = 0x9E3779B97F4A7C15 := by decide
theorem mixC1_toNat : mixC1.toNat = 0xBF58476D1CE4E5B9 := by decide
theorem mixC2_toNat : mixC2.toNat = 0x94D049BB133111EB := by decide

/-- The mixer as one expression. -/
theorem outputMixer_eq (z : Word) :
    outputMixer z = xorShift (xorShift (xorShift z 30 * mixC1) 27 * mixC2) 31 := by simp only [outputMixer]

theorem xorShift_toNat (z : Word) (k : Nat) : (xorShift z k).toNat = z.toNat ^^^ (z.toNat / 2 ^ k) := by
  rw [xorShift, BitVec.toNat_xor, BitVec.toNat_ushiftRight, Nat.shiftRight_eq_div_pow]

theorem topBits_eq_div (r : Word) : topBits r = r.toNat / 2 ^ 11 := by
  rw [topBits, unat, BitVec.toNat_ushiftRight, Nat.shiftRight_eq_div_pow]

/-- `k` transitions add `k` times GAMMA. -/
theorem stateTransition_iterate (k : Nat) (x : Word) : stateTransition^[k] x = x + BitVec.ofNat 64 k * gamma := by
  induction k generalizing x with
  | zero => simp
  | succ k ih =>
    rw [Function.iterate_succ_apply, ih, stateTransition, BitVec.add_assoc, show k + 1 = 1 + k by omega,
      BitVec.ofNat_add, BitVec.add_mul]
    simp

end Sys2Proof.Machine
end

