-- ==== Sys2Proof/Laws/Assembler.lean ====
section
/-! SUPPORT. What a literal's word is, and when a literal is in range, as numbers: no proof about the assembler unfolds
`literalWord` or a range. -/

namespace Sys2Proof.Machine

theorem unsignedInRange_iff (bits : Nat) (l : Literal) :
    unsignedInRange bits l = true ↔ 0 ≤ literalValue l ∧ literalValue l < 2 ^ bits := by simp [unsignedInRange]

theorem signedInRange_iff (l : Literal) :
    signedInRange l = true ↔ -2 ^ 63 ≤ literalValue l ∧ literalValue l < 2 ^ 64 := by simp [signedInRange]

theorem ofInt_toNat_of_range {bits : Nat} {v : Int} (low : 0 ≤ v) (high : v < 2 ^ bits) :
    ((BitVec.ofInt bits v).toNat : Int) = v := by
  rw [BitVec.toNat_ofInt, Int.toNat_of_nonneg (Int.emod_nonneg _ (by positivity))]
  exact Int.emod_eq_of_lt low (by exact_mod_cast high)

/-- The word of a non-negative literal is its number. -/
theorem literalWord_toNat {l : Literal} (low : 0 ≤ literalValue l) (high : literalValue l < 2 ^ 64) :
    ((literalWord l).toNat : Int) = literalValue l := ofInt_toNat_of_range low high

/-- The word of a signed literal is its two's-complement word. -/
theorem literalWord_toInt {l : Literal} (low : -2 ^ 63 ≤ literalValue l) (high : literalValue l < 2 ^ 63) :
    (literalWord l).toInt = literalValue l := by
  rw [literalWord, BitVec.toInt_ofInt, Int.bmod_def]
  split <;> omega

/-- A line whose literals are in range gives its triple. -/
theorem assemble_ok {l : AsmLine} (h : l.wellFormed = true) : assemble l = .ok (lineCommand l) := by
  simp [assemble, h]

/-- Every other line is the one error. -/
theorem assemble_error {l : AsmLine} (h : ¬l.wellFormed = true) : assemble l = .error .literalOutOfRange := by
  simp [assemble, h]

end Sys2Proof.Machine
end

