-- ==== Sys2Proof/Laws/Operands.lean ====
section
/-! SUPPORT. The small facts of the operand readings. -/

namespace Sys2Proof.Machine

/-- The spec's signed reading is the library's two's-complement reading. -/
theorem sint_eq_toInt (v : Word) : sint v = v.toInt := by
  have h : v.getLsbD 63 = v.msb := by simp [BitVec.msb_eq_getLsbD_last]
  rw [sint, h, BitVec.toInt_eq_msb_cond]
  rfl

theorem span_pos (low high : Word) : 1 ≤ span low high := by simp [span]

theorem span_le (low high : Word) : span low high ≤ 2 ^ 64 := by
  have := (high - low).isLt
  simp only [span, unat]
  omega

theorem reduce_lt (r : Word) {n : Nat} (h : 0 < n) : reduce r n < n := Nat.mod_lt _ h

end Sys2Proof.Machine
end

