-- ==== Sys2Proof/Laws/State.lean ====
section
/-! SUPPORT. One lemma per field per update of State. -/

namespace Sys2Proof.Machine

@[simp] theorem State.writeSTATE_STATE (s : State) (v : Word) : (s.writeSTATE v).STATE = some v := rfl
@[simp] theorem State.writeSTATE_port (s : State) (v : Word) : (s.writeSTATE v).port = s.port := rfl
@[simp] theorem State.writeSTATE_response (s : State) (v : Word) : (s.writeSTATE v).response = s.response := rfl

@[simp] theorem State.respond_STATE (s : State) (c : Code) (v : Word) : (s.respond c v).STATE = s.STATE := rfl
@[simp] theorem State.respond_port (s : State) (c : Code) (v : Word) : (s.respond c v).port = s.port := rfl
@[simp] theorem State.respond_response (s : State) (c : Code) (v : Word) :
    (s.respond c v).response = some ⟨c, v⟩ := rfl

@[simp] theorem State.withPort_STATE (s : State) (p : List PortEvent) : (s.withPort p).STATE = s.STATE := rfl
@[simp] theorem State.withPort_port (s : State) (p : List PortEvent) : (s.withPort p).port = p := rfl
@[simp] theorem State.withPort_response (s : State) (p : List PortEvent) :
    (s.withPort p).response = s.response := rfl

@[simp] theorem hardReset_STATE (s : State) : (hardReset s).STATE = some 0 := rfl
@[simp] theorem hardReset_port (s : State) : (hardReset s).port = s.port := rfl
@[simp] theorem hardReset_response (s : State) : (hardReset s).response = none := rfl

@[simp] theorem idle_STATE (s : State) : (idle s).STATE = s.STATE := rfl
@[simp] theorem idle_port (s : State) : (idle s).port = s.port := rfl
@[simp] theorem idle_response (s : State) : (idle s).response = none := rfl

end Sys2Proof.Machine
end

