-- ==== Sys2Proof/Laws/Ops.lean ====
section
/-! SUPPORT. What each shared operation does, said once: its value on a live instance, and the inversion of its next
state. -/

namespace Sys2Proof.Machine

theorem withSTATE_of_none {s : State} (h : s.STATE = none) (f : Word → Result) :
    withSTATE s f = .fault .beforeReset := by simp [withSTATE, h]

theorem withSTATE_of_some {s : State} {x : Word} (h : s.STATE = some x) (f : Word → Result) :
    withSTATE s f = f x := by simp [withSTATE, h]

theorem withSTATE_next {s t : State} {f : Word → Result} (h : withSTATE s f = .next t) :
    ∃ x, s.STATE = some x ∧ f x = .next t := by
  cases hs : s.STATE with
  | none => simp [withSTATE_of_none hs] at h
  | some x => exact ⟨x, rfl, by rwa [withSTATE_of_some hs] at h⟩

theorem raiseError_of_some {s : State} {x : Word} (h : s.STATE = some x) (c : Code) :
    raiseError c s = .next (s.respond c 0) := withSTATE_of_some h _

theorem raiseError_of_none {s : State} (h : s.STATE = none) (c : Code) :
    raiseError c s = .fault .beforeReset := withSTATE_of_none h _

theorem raiseError_next {s t : State} {c : Code} (h : raiseError c s = .next t) :
    ∃ x, s.STATE = some x ∧ t = s.respond c 0 := by
  obtain ⟨x, hx, ht⟩ := withSTATE_next h
  exact ⟨x, hx, by simpa using ht.symm⟩

theorem seedSTATE_of_some {s : State} {x : Word} (h : s.STATE = some x) (seed : Word) :
    seedSTATE seed s = .next ((s.writeSTATE seed).respond .ok 0) := withSTATE_of_some h _

theorem seedSTATE_of_none {s : State} (h : s.STATE = none) (seed : Word) :
    seedSTATE seed s = .fault .beforeReset := withSTATE_of_none h _

theorem drawResult_of_some {s : State} {x : Word} (h : s.STATE = some x) (f : Word → Word) :
    drawResult s f =
      .next ((s.writeSTATE (stateTransition x)).respond .ok (f (outputMixer (stateTransition x)))) :=
  withSTATE_of_some h _

theorem drawResult_of_none {s : State} (h : s.STATE = none) (f : Word → Word) :
    drawResult s f = .fault .beforeReset := withSTATE_of_none h _

theorem drawResult_next {s t : State} {f : Word → Word} (h : drawResult s f = .next t) :
    ∃ x, s.STATE = some x ∧
      t = (s.writeSTATE (stateTransition x)).respond .ok (f (outputMixer (stateTransition x))) := by
  obtain ⟨x, hx, ht⟩ := withSTATE_next h
  exact ⟨x, hx, by simpa [nextRaw] using ht.symm⟩

theorem checked_some (c : Code) (s : State) (effect : Result) :
    checked (some c) s effect = raiseError c s := rfl

theorem checked_none (s : State) (effect : Result) : checked none s effect = effect := rfl

theorem rangeError_zero : rangeError 0 = some .invalidRange := rfl

theorem rangeError_of_ne {n : Word} (h : n ≠ 0) : rangeError n = none := if_neg h

theorem intervalErrorU_eq_none {low high : Word} : intervalErrorU low high = none ↔ low.toNat ≤ high.toNat := by
  by_cases h : low.toNat ≤ high.toNat <;> simp [intervalErrorU, orderedU, unat, h]

theorem intervalErrorS_eq_none {low high : Word} : intervalErrorS low high = none ↔ sint low ≤ sint high := by
  by_cases h : sint low ≤ sint high <;> simp [intervalErrorS, orderedS, h]

end Sys2Proof.Machine
end

