-- ==== Sys2Proof/Laws/PerInstr.lean ====
section
/-! SUPPORT. Statements made per instruction, one lemma per constructor (LAWS.json names the families). -/

namespace Sys2Proof.Laws

/-- The encoder's command word passes the three checks of WellFormed.lean (spec/30_encoding.md R64). -/
def EncodeWellFormed.Statement (i : Instr) : Prop := (encode i).wellFormed = true

theorem wellFormed_iff (c : Command) : c.wellFormed = true ↔
    c.cmd &&& 0xE0 = 0 ∧ (c.cmd &&& 0x10 = 0 ∨ c.cmd &&& 0x0F = 6) ∧ c.cmd &&& 0x08 = 0 := by
  simp [Command.wellFormed, Command.reservedClear, Command.signedAllowed, Command.opAssigned, and_assoc]

theorem EncodeWellFormed.construct (seed : Word) : EncodeWellFormed.Statement (.construct seed) := by
  simp [EncodeWellFormed.Statement, encode, wellFormed_iff]
theorem EncodeWellFormed.reseed (seed : Word) : EncodeWellFormed.Statement (.reseed seed) := by
  simp [EncodeWellFormed.Statement, encode, wellFormed_iff]
theorem EncodeWellFormed.getstate : EncodeWellFormed.Statement .getstate := by
  simp [EncodeWellFormed.Statement, encode, wellFormed_iff]
theorem EncodeWellFormed.next : EncodeWellFormed.Statement .next := by
  simp [EncodeWellFormed.Statement, encode, wellFormed_iff]
theorem EncodeWellFormed.nextdouble : EncodeWellFormed.Statement .nextdouble := by
  simp [EncodeWellFormed.Statement, encode, wellFormed_iff]
theorem EncodeWellFormed.range (n : Word) : EncodeWellFormed.Statement (.range n) := by
  simp [EncodeWellFormed.Statement, encode, wellFormed_iff]
theorem EncodeWellFormed.randintU (low high : Word) : EncodeWellFormed.Statement (.randintU low high) := by
  simp [EncodeWellFormed.Statement, encode, wellFormed_iff]
theorem EncodeWellFormed.randintS (low high : Word) : EncodeWellFormed.Statement (.randintS low high) := by
  simp [EncodeWellFormed.Statement, encode, wellFormed_iff]
theorem EncodeWellFormed.toss : EncodeWellFormed.Statement .toss := by
  simp [EncodeWellFormed.Statement, encode, wellFormed_iff]

end Sys2Proof.Laws
end

