-- ==== Sys2Proof/Laws/Step.lean ====
section
/-! SUPPORT. What a step does with each kind of request, and what a command does, said once. -/

namespace Sys2Proof.Machine

theorem step_of_empty {s : State} (h : s.port = []) : step s = .next (idle s) := by
  simp [step, runPort, h]

theorem step_of_event {s : State} {e : PortEvent} {rest : List PortEvent} (h : s.port = e :: rest) :
    step s = runEvent e (s.withPort rest) := by
  simp [step, runPort, h]

theorem runCommand_of_ok {c : Command} {i : Instr} (h : decode c = .ok i) (s : State) :
    runCommand c s = exec i s := by simp [runCommand, h]

theorem runCommand_of_error {c : Command} {e : IllegalWord} (h : decode c = .error e) (s : State) :
    runCommand c s = raiseError .illegalCommand s := by simp [runCommand, h]

/-- Presenting a command and running it leaves the requests behind it as they were. -/
theorem issue_eq (c : Command) (s : State) : issue c s = runCommand c s := rfl

/-- Every command's answer on a live instance: it seeds STATE, or reads it, or is turned away by its operand check,
or draws once. -/
theorem exec_of_some {s : State} {x : Word} (h : s.STATE = some x) (i : Instr) :
    (∃ seed, seedOf i = some seed ∧ exec i s = .next ((s.writeSTATE seed).respond .ok 0)) ∨
    (i = .getstate ∧ exec i s = .next (s.respond .ok x)) ∨
    (∃ c, operandError i = some c ∧ exec i s = .next (s.respond c 0)) ∨
    (isDrawing i = true ∧ operandError i = none ∧ ∃ v,
      exec i s = .next ((s.writeSTATE (stateTransition x)).respond .ok v)) := by
  have drawn (f : Word → Word) : ∃ v, drawResult s f =
      .next ((s.writeSTATE (stateTransition x)).respond .ok v) := ⟨_, drawResult_of_some h f⟩
  cases i with
  | construct seed => exact .inl ⟨seed, rfl, seedSTATE_of_some h seed⟩
  | reseed seed => exact .inl ⟨seed, rfl, seedSTATE_of_some h seed⟩
  | getstate => exact .inr (.inl ⟨rfl, withSTATE_of_some h _⟩)
  | next => exact .inr (.inr (.inr ⟨rfl, rfl, drawn fun r => r⟩))
  | nextdouble => exact .inr (.inr (.inr ⟨rfl, rfl, drawn fun r => toBinary64 (topBits r)⟩))
  | toss => exact .inr (.inr (.inr ⟨rfl, rfl, drawn fun r => BitVec.ofNat 64 (reduce r 2)⟩))
  | range n =>
    cases he : rangeError n with
    | some c => exact .inr (.inr (.inl ⟨c, he, by simp [exec, execRange, he, checked_some, raiseError_of_some h]⟩))
    | none =>
      refine .inr (.inr (.inr ⟨rfl, he, ?_⟩))
      simpa only [exec, execRange, he, checked_none] using drawn _
  | randintU low high =>
    cases he : intervalErrorU low high with
    | some c => exact .inr (.inr (.inl ⟨c, he, by simp [exec, execRandintU, he, checked_some, raiseError_of_some h]⟩))
    | none =>
      refine .inr (.inr (.inr ⟨rfl, he, ?_⟩))
      simpa only [exec, execRandintU, he, checked_none] using drawn _
  | randintS low high =>
    cases he : intervalErrorS low high with
    | some c => exact .inr (.inr (.inl ⟨c, he, by simp [exec, execRandintS, he, checked_some, raiseError_of_some h]⟩))
    | none =>
      refine .inr (.inr (.inr ⟨rfl, he, ?_⟩))
      simpa only [exec, execRandintS, he, checked_none] using drawn _

/-- Before the first reset no command runs. -/
theorem exec_of_none {s : State} (h : s.STATE = none) (i : Instr) : exec i s = .fault .beforeReset := by
  have drawn (f : Word → Word) := drawResult_of_none h f
  have raised (c : Code) := raiseError_of_none h c
  have ran (e : Option Code) (f : Word → Word) : checked e s (drawResult s f) = .fault .beforeReset := by
    cases e with
    | none => exact drawn f
    | some c => exact raised c
  cases i with
  | construct seed => exact seedSTATE_of_none h seed
  | reseed seed => exact seedSTATE_of_none h seed
  | getstate => exact withSTATE_of_none h _
  | next => exact drawn fun r => r
  | nextdouble => exact drawn fun r => toBinary64 (topBits r)
  | toss => exact drawn fun r => BitVec.ofNat 64 (reduce r 2)
  | range n => exact ran _ _
  | randintU low high => exact ran _ _
  | randintS low high => exact ran _ _

end Sys2Proof.Machine
end

