-- ==== Sys2Proof/Laws/Session.lean ====
section
/-! SUPPORT. What one command of a session does, said once, and how a run takes its first step. -/

namespace Sys2Proof.Machine

/-- A step with a command at the port is that command issued with the rest behind it. -/
theorem step_of_command {s : State} {c : Command} {rest : List PortEvent} (h : s.port = .command c :: rest) :
    step s = issue c (s.withPort rest) := step_of_event h

/-- Every command of a live instance is answered: with OK and the write its rule gives, or with an error code, RES = 0
and STATE as it was. -/
theorem issue_of_some {s : State} {x : Word} (h : s.STATE = some x) (c : Command) :
    ∃ t r, issue c s = .next t ∧ t.port = s.port ∧ t.response = some r ∧
      ((∃ seed, commandSeed c = some seed ∧ r = ⟨.ok, 0⟩ ∧ t.STATE = some seed) ∨
        (decode c = .ok .getstate ∧ r = ⟨.ok, x⟩ ∧ t.STATE = some x) ∨
        (successfulDraw c = true ∧ r.code = .ok ∧ t.STATE = some (stateTransition x)) ∨
        (((∃ e, decode c = .error e) ∨ ∃ i k, decode c = .ok i ∧ operandError i = some k ∧ r.code = k) ∧
          r.res = 0 ∧ t.STATE = some x)) := by
  rw [issue_eq]
  cases hd : decode c with
  | error e =>
    rw [runCommand_of_error hd, raiseError_of_some h]
    exact ⟨_, _, rfl, rfl, rfl, .inr (.inr (.inr ⟨.inl ⟨e, rfl⟩, rfl, h⟩))⟩
  | ok i =>
    rw [runCommand_of_ok hd]
    rcases exec_of_some h i with ⟨seed, hs, he⟩ | ⟨rfl, he⟩ | ⟨k, hk, he⟩ | ⟨hi, hn, v, he⟩
    · exact ⟨_, _, he, rfl, rfl, .inl ⟨seed, by simp [commandSeed, hd, hs], rfl, rfl⟩⟩
    · exact ⟨_, _, he, rfl, rfl, .inr (.inl ⟨rfl, rfl, h⟩)⟩
    · exact ⟨_, _, he, rfl, rfl, .inr (.inr (.inr ⟨.inr ⟨i, k, rfl, hk, rfl⟩, rfl, h⟩))⟩
    · exact ⟨_, _, he, rfl, rfl, .inr (.inr (.inl ⟨by simp [successfulDraw, hd, hi, hn], rfl, rfl⟩))⟩

theorem session_of_next {s t : State} {c : Command} {cs : List Command} (h : issue c s = .next t) :
    session (c :: cs) s = session cs t := by simp [session, h]

theorem responses_of_next {s t : State} {c : Command} {cs : List Command} (h : issue c s = .next t) :
    responses (c :: cs) s = t.response.toList ++ responses cs t := by simp [responses, h]

theorem run_of_next (M : Host.Core) (n : Nat) (s t : M.State) (h : M.step s = .next t) :
    M.run (n + 1) s = M.run n t := by rw [Host.Core.run, h]

theorem run_of_fault (M : Host.Core) (n : Nat) (s : M.State) (f : M.Fault) (h : M.step s = .fault f) :
    M.run (n + 1) s = .fault f := by rw [Host.Core.run, h]

end Sys2Proof.Machine
end

