-- ==== Sys2Proof/Tests/Slice0.lean ====
section
/-! SUPPORT. Tests. Expected values come from spec/95_test_vectors.md (the vector is named at each test), from the
encodings of spec/30_encoding.md R63 written out bit by bit, and from the spec's worked values; none is the model's own
answer. The witnesses show that the hypotheses of the statements of Certificates/Slice0/Obligations.lean can be met
together. -/

namespace Sys2Proof.Machine

/-- The state after one command from STATE = x, or none where the command stops. -/
def afterCommand (x : Word) (c : Command) : Option State :=
  match issue c (State.reset.writeSTATE x) with
  | .next t => some t
  | .fault _ => none
  | .refused _ => none

/-- What a test vector's row says: STATE', CODE and RES. -/
def row (x' : Word) (code : Code) (res : Word) : Option State := some ⟨some x', [], some ⟨code, res⟩⟩

/-- The fault a step ends in, if it does. -/
def stepFault (s : State) : Option Fault :=
  match step s with
  | .next _ => none
  | .fault f => some f
  | .refused _ => none

/-- The next state of a step, if there is one. -/
def stepNext (s : State) : Option State :=
  match step s with
  | .next t => some t
  | .fault _ => none
  | .refused _ => none

/-! Well-formedness: an ill-formed word for each check (R64) -/

theorem test_wellFormed_refuses_reserved_bits : Command.reservedClear ⟨0x20, 0, 0⟩ = false := by decide
theorem test_wellFormed_refuses_signed_select : Command.signedAllowed ⟨0x15, 0, 0⟩ = false := by decide
theorem test_wellFormed_refuses_unassigned_op : Command.opAssigned ⟨0x08, 0, 0⟩ = false := by decide
theorem test_wellFormed_refuses_each :
    Command.wellFormed ⟨0x20, 0, 0⟩ = false ∧ Command.wellFormed ⟨0x15, 0, 0⟩ = false ∧
    Command.wellFormed ⟨0x08, 0, 0⟩ = false ∧ Command.wellFormed ⟨0x16, 0, 0⟩ = true := by decide
theorem test_line_wellFormed_refuses_wide_literals :
    AsmLine.wellFormed (.range (.decimal (2 ^ 64))) = false ∧ AsmLine.wellFormed (.range (.decimal (-1))) = false ∧
    AsmLine.wellFormed (.randintS (.decimal (-2 ^ 63 - 1)) (.decimal 0)) = false ∧
    AsmLine.wellFormed (.raw (.hex 0x100) (.hex 0) (.hex 0)) = false := by decide

/-! Decoding: each command's word, CMD written bit by bit as RSV S OP (R61, R63), OPA = 5, OPB = 9 -/

theorem test_decode_construct : decode ⟨0b000_0_0000, 5, 9⟩ = .ok (.construct 5) := by decide
theorem test_decode_reseed : decode ⟨0b000_0_0001, 5, 9⟩ = .ok (.reseed 5) := by decide
theorem test_decode_getstate : decode ⟨0b000_0_0010, 5, 9⟩ = .ok .getstate := by decide
theorem test_decode_next : decode ⟨0b000_0_0011, 5, 9⟩ = .ok .next := by decide
theorem test_decode_nextdouble : decode ⟨0b000_0_0100, 5, 9⟩ = .ok .nextdouble := by decide
theorem test_decode_range : decode ⟨0b000_0_0101, 5, 9⟩ = .ok (.range 5) := by decide
theorem test_decode_randintU : decode ⟨0b000_0_0110, 5, 9⟩ = .ok (.randintU 5 9) := by decide
theorem test_decode_randintS : decode ⟨0b000_1_0110, 5, 9⟩ = .ok (.randintS 5 9) := by decide
theorem test_decode_toss : decode ⟨0b000_0_0111, 5, 9⟩ = .ok .toss := by decide
/-- The same through the table's numbering: RANDINT.S as a byte alone, and with both operand words. -/
theorem test_decode_table_word :
    decodeTableWord 8 0b00010110 = some (.randintS 0 0) ∧
    decodeTableWord 136 (0b00010110 + 5 * 2 ^ 8 + 9 * 2 ^ 72) = some (.randintS 5 9) := by decide
/-- V-X1, V-X3, V-X8, V-X9 and V-X11, with the grounds the table names. -/
theorem test_decode_illegal :
    decode ⟨0x08, 0, 0⟩ = .error .unassignedOp ∧ decode ⟨0x10, 0, 0⟩ = .error .signedSelect ∧
    decode ⟨0x25, 0, 0⟩ = .error .reservedBits ∧ decode ⟨0x26, 0, 0⟩ = .error .reservedBits ∧
    decode ⟨0xFF, 0, 0⟩ = .error .reservedBits := by decide

/-! T and M (the table of spec/95_test_vectors.md, section 2; R95's constants) -/

theorem test_transition_wraps :
    stateTransition 0x61C8864680B583EB = 0 ∧ stateTransition 0xFFFFFFFFFFFFFFFF = 0x9E3779B97F4A7C14 := by decide
theorem test_mixer :
    outputMixer 1 = 0x5692161D100B05E5 ∧ outputMixer 0x8000000000000000 = 0x25C26EA579CEA98A ∧
    outputMixer 0xFFFFFFFFFFFFFFFF = 0xB4D055FCF2CBBD7B := by decide
/-- The seeds of V-N4 and V-F3 were found by the inverse. -/
theorem test_seedForRaw :
    seedForRaw 0xFFFFFFFFFFFFFFFF = 0x31628AF67B2131AB ∧ seedForRaw 0x800 = 0x207400B0B9F87A70 := by decide

/-! One command from one STATE -/

/-- V-S2. -/
theorem test_construct : afterCommand 0x123 ⟨0x00, 0xFFFFFFFFFFFFFFFF, 0x55⟩ = row 0xFFFFFFFFFFFFFFFF .ok 0 := by decide
/-- V-S3. -/
theorem test_reseed : afterCommand 0x123 ⟨0x01, 0x9E3779B97F4A7C15, 0⟩ = row 0x9E3779B97F4A7C15 .ok 0 := by decide
/-- V-S4. -/
theorem test_getstate :
    afterCommand 0x9E3779B97F4A7C15 ⟨0x02, 0x77, 0x88⟩ = row 0x9E3779B97F4A7C15 .ok 0x9E3779B97F4A7C15 := by decide
/-- V-N3. -/
theorem test_next_wraps :
    afterCommand 0xFFFFFFFFFFFFFFFF ⟨0x03, 0, 0⟩ = row 0x9E3779B97F4A7C14 .ok 0xE4D971771B652C20 := by decide
/-- V-N5. -/
theorem test_next_ignores_operands :
    afterCommand 0x0123456789ABCDEF ⟨0x03, 0xFFFF, 0xFFFF⟩ = row 0x9F5ABF2108F64A04 .ok 0x157A3807A48FAA9D := by decide
/-- V-F3: 2^-53, the smallest result above zero. -/
theorem test_nextdouble_smallest :
    afterCommand 0x207400B0B9F87A70 ⟨0x04, 0, 0⟩ = row 0xBEAB7A6A3942F685 .ok 0x3CA0000000000000 := by decide
/-- V-D3 of the source, from its stepped state. -/
theorem test_nextdouble_source_vector :
    afterCommand 0x3C6EF372FE94F82A ⟨0x04, 0, 0⟩ = row 0xDAA66D2C7DDF743F .ok 0x3F9B117462002500 := by decide
/-- V-R1: no draw, STATE kept. -/
theorem test_range_zero : afterCommand 0x9E3779B97F4A7C15 ⟨0x05, 0, 7⟩ = row 0x9E3779B97F4A7C15 .invalidRange 0 := by decide
/-- V-R7: raw = n. -/
theorem test_range_raw_equals_bound :
    afterCommand 0x31628AF67B2131AB ⟨0x05, 0xFFFFFFFFFFFFFFFF, 0⟩ = row 0xCF9A04AFFA6BADC0 .ok 0 := by decide
/-- V-I10: the words of V-I9, unsigned. -/
theorem test_randintU_wide :
    afterCommand 0 ⟨0x06, 5, 0xFFFFFFFFFFFFFFFB⟩ = row 0x9E3779B97F4A7C15 .ok 0xE220A8397B1DCDB4 := by decide
/-- V-I5. -/
theorem test_randintU_unordered :
    afterCommand 0 ⟨0x06, 0xFFFFFFFFFFFFFFFF, 0⟩ = row 0 .invalidInterval 0 := by decide
/-- V-I7. -/
theorem test_randintS_negative_low :
    afterCommand 0 ⟨0x16, 0xFFFFFFFFFFFFFFFB, 5⟩ = row 0x9E3779B97F4A7C15 .ok 0xFFFFFFFFFFFFFFFC := by decide
/-- V-I9. -/
theorem test_randintS_unordered :
    afterCommand 0 ⟨0x16, 5, 0xFFFFFFFFFFFFFFFB⟩ = row 0 .invalidInterval 0 := by decide
/-- V-T2. -/
theorem test_toss : afterCommand 0x9E3779B97F4A7C15 ⟨0x07, 0, 0⟩ = row 0x3C6EF372FE94F82A .ok 0 := by decide
/-- V-X8: the decode error comes before the operand check. -/
theorem test_illegal_before_operand_check :
    afterCommand 0x9E3779B97F4A7C15 ⟨0x25, 0, 0⟩ = row 0x9E3779B97F4A7C15 .illegalCommand 0 := by decide

/-! The port -/

/-- V-M2, and an illegal word before the first reset (R171: "any command"). -/
theorem test_before_reset_faults :
    stepFault (present ⟨0x02, 0, 0⟩ State.powerOn) = some .beforeReset ∧
    stepFault (present ⟨0xFF, 0, 0⟩ State.powerOn) = some .beforeReset := by decide
/-- V-M3. -/
theorem test_overlap_faults :
    stepFault (State.reset.withPort [.overlap ⟨0x03, 0, 0⟩ ⟨0x02, 0, 0⟩]) = some .overlappingCommands := by decide
/-- R170, R171: a first reset. -/
theorem test_reset_from_power_on :
    stepNext (State.powerOn.withPort [.reset]) = some State.reset := by decide
/-- V-N1 as the first instruction after reset. -/
theorem test_withFetchWord_runs_next :
    stepNext (State.reset.withFetchWord 8 0x03) = row 0x9E3779B97F4A7C15 .ok 0xE220A8397B1DCDAF := by decide

/-! The requester's side -/

/-- R68's own example. -/
theorem test_triple_text :
    commandText ⟨0x06, 7, 3⟩ = "06:0000000000000007:0000000000000003".toList := by decide
/-- Program P3, step 4, from its text. -/
theorem test_read_randintS_line :
    (readLine "RANDINT.S -5, 5".toList).map assemble = some (.ok ⟨0x16, 0xFFFFFFFFFFFFFFFB, 5⟩) := by decide
/-- Program P3, step 8; P1, step 1; P2, step 5. -/
theorem test_read_other_lines :
    (readLine ".CMD 0x08, 0, 0".toList).map assemble = some (.ok ⟨0x08, 0, 0⟩) ∧
    (readLine "CONSTRUCT".toList).map assemble = some (.ok ⟨0x00, 0, 0⟩) ∧
    (readLine "RESEED 0x9E3779B97F4A7C15".toList).map assemble = some (.ok ⟨0x01, 0x9E3779B97F4A7C15, 0⟩) := by decide
/-- R66: no line, and a literal out of range. -/
theorem test_bad_lines :
    readLine "RANGE -0x5".toList = none ∧ readLine "NEXT 1".toList = none ∧
    (readLine "RANGE -5".toList).map assemble = some (.error .literalOutOfRange) := by decide
/-- R42: the two usual orders of a word's bytes are instances of the parameter. -/
theorem test_checkpoint_bytes :
    storeBytes (Equiv.refl _) 0x0102030405060708 = #v[8, 7, 6, 5, 4, 3, 2, 1] ∧
    storeBytes Fin.revPerm 0x0102030405060708 = #v[1, 2, 3, 4, 5, 6, 7, 8] ∧
    restoreBytes Fin.revPerm #v[1, 2, 3, 4, 5, 6, 7, 8] = 0x0102030405060708 := by decide
/-- R111: 0.5 read as a number (V-F6), and an infinity has no value. -/
theorem test_binary64_value :
    binary64Value 0x3FE0000000000000 = some (1 / 2) ∧ binary64Value 0x7FF0000000000000 = none := by
  constructor
  · have h : binary64Exponent 0x3FE0000000000000 = 1022 ∧ binary64Fraction 0x3FE0000000000000 = 0 ∧
        binary64Sign 0x3FE0000000000000 = false := by decide
    simp only [binary64Value, binary64Magnitude, h]
    rw [show (2 : ℚ) ^ 1075 = 2 ^ 1022 * 2 ^ 53 by rw [← pow_add]]
    norm_num
    field_simp
    norm_num
  · have h : binary64Exponent 0x7FF0000000000000 = 2047 := by decide
    simp only [binary64Value, h, if_true]

/-! Witnesses: the hypotheses of each statement, met together -/

/-- A live instance (STATE = 7) with a command and then a reset at its port. -/
def liveWith (cmd : Byte) (a b : Word) : State := ⟨some 7, [.command ⟨cmd, a, b⟩, .reset], some ⟨.ok, 1⟩⟩

/-- The same with no command before the reset. -/
def liveIdle : State := ⟨some 7, [], some ⟨.ok, 1⟩⟩

theorem witness_ResetSeedsZero :
    (State.powerOn.withPort [.reset]).port = .reset :: [] ∧ ∃ (s t u : State) (rest : List PortEvent),
      s.STATE.isSome = true ∧ s.port = .reset :: rest ∧ step s = .next t ∧ exec (.construct 0) s = .next u :=
  ⟨rfl, liveIdle.withPort [.reset], _, _, [], rfl, rfl, rfl, rfl⟩
theorem witness_ProtocolViolationsFault :
    (liveIdle.withPort [.overlap ⟨3, 0, 0⟩ ⟨2, 0, 0⟩]).port = .overlap ⟨3, 0, 0⟩ ⟨2, 0, 0⟩ :: [] ∧
    (liveIdle.withPort [.overlap ⟨3, 0, 0⟩ ⟨2, 0, 0⟩]).STATE.isSome = true ∧
    (State.powerOn.withPort [.command ⟨2, 0, 0⟩]).STATE = none ∧
    (State.powerOn.withPort [.command ⟨2, 0, 0⟩]).port = .command ⟨2, 0, 0⟩ :: [] := by decide
theorem witness_EveryCommandEndsInOneOfThreeOutcomes :
    (liveWith 0xFF 0 0).STATE = some 7 ∧ (liveWith 0xFF 0 0).port = .command ⟨0xFF, 0, 0⟩ :: [.reset] ∧
    (liveWith 0x03 0 0).port = .command ⟨0x03, 0, 0⟩ :: [.reset] := by decide
theorem witness_StepKeepsSafeRun : (liveWith 0x05 0 0).Inv ∧ (stepNext (liveWith 0x05 0 0)).isSome = true := by decide
theorem witness_SafeRunsNeverStop : (liveWith 0xFF 0 0).Inv := by decide
theorem witness_IdleBlockKeepsSTATE : liveIdle.port = [] ∧ State.powerOn.port = [] := by decide
theorem witness_StepRunsDecodedCommand :
    (liveWith 0x16 5 9).port = .command ⟨0x16, 5, 9⟩ :: [.reset] ∧ decode ⟨0x16, 5, 9⟩ = .ok (.randintS 5 9) ∧
    decodeTableWord 8 0x16 = some (.randintS 0 0) := by decide
theorem witness_IllegalWordsAreAnswered :
    (liveWith 0xFF 0 0).STATE = some 7 ∧ (liveWith 0xFF 0 0).port = .command ⟨0xFF, 0, 0⟩ :: [.reset] ∧
    decode ⟨0xFF, 0, 0⟩ = .error .reservedBits := by decide
theorem witness_DecodeEncodeAgree : (Instr.randintS 5 9).wellFormed = true := by decide
theorem witness_IgnoredOperandsHaveNoEffect :
    (0x07 : Byte) ∈ ([0x02, 0x03, 0x04, 0x07] : List Byte) ∧ (0x05 : Byte) ∈ ([0x00, 0x01, 0x05] : List Byte) ∧
    (5 : Word).toNat ≤ (5 : Word).toNat ∧ sint 5 ≤ sint 5 := by decide
theorem witness_ConstructSeedsSTATE :
    (liveWith 0x00 5 9).STATE = some 7 ∧ (liveWith 0x00 5 9).port = .command ⟨0x00, 5, 9⟩ :: [.reset] := by decide
theorem witness_ReseedSeedsSTATE :
    (liveWith 0x01 5 9).STATE = some 7 ∧ (liveWith 0x01 5 9).port = .command ⟨0x01, 5, 9⟩ :: [.reset] ∧
    ∃ t, exec (.reseed 7) (liveWith 0x01 5 9) = .next t := ⟨rfl, rfl, _, rfl⟩
theorem witness_GetStateReturnsSTATE :
    (liveWith 0x02 5 9).STATE = some 7 ∧ (liveWith 0x02 5 9).port = .command ⟨0x02, 5, 9⟩ :: [.reset] ∧
    (0x01 : Byte) ∈ ([0x00, 0x01] : List Byte) ∧
    ∀ c ∈ [(⟨0x03, 0, 0⟩ : Command), ⟨0x05, 1, 0⟩], successfulDraw c = true := by decide
theorem witness_NextReturnsTheRawDraw :
    (liveWith 0x03 5 9).STATE = some 7 ∧ (liveWith 0x03 5 9).port = .command ⟨0x03, 5, 9⟩ :: [.reset] := by decide
theorem witness_NextDoubleConvertsTheRawDraw :
    (liveWith 0x04 5 9).STATE = some 7 ∧ (liveWith 0x04 5 9).port = .command ⟨0x04, 5, 9⟩ :: [.reset] ∧
    (2047 : Word).toNat < 2 ^ 11 ∧ (2 ^ 11 ≤ (2048 : Word).toNat ∧ (2048 : Word).toNat < 2 ^ 12) ∧
    0xFFFFFFFFFFFFF800 ≤ (0xFFFFFFFFFFFFF800 : Word).toNat ∧
    binary64Exponent (toBinary64 ((0 : Word).toNat / 2 ^ 11)) = 0 := by decide
theorem witness_RangeReducesTheRawDraw :
    (liveWith 0x05 0 9).STATE = some 7 ∧ (liveWith 0x05 0 9).port = .command ⟨0x05, 0, 9⟩ :: [.reset] ∧
    (1 : Word) ≠ 0 ∧ (1 : Word).toNat = 1 ∧ (0x8000000000000000 : Word).toNat = 2 ^ 63 ∧
    (8 : Word).toNat < (9 : Word).toNat := by decide
theorem witness_RandIntDrawsFromTheInterval :
    (liveWith 0x06 5 9).STATE = some 7 ∧ (liveWith 0x06 5 9).port = .command ⟨0x06, 5, 9⟩ :: [.reset] ∧
    (liveWith 0x16 5 9).port = .command ⟨0x16, 5, 9⟩ :: [.reset] ∧
    ((5 : Word).toNat ≤ (5 : Word).toNat ∧ (4 : Word).toNat < (5 : Word).toNat) ∧
    ((0x8000000000000000 : Word).toInt ≤ (0x8000000000000000 : Word).toInt ∧
      (0x8000000000000000 : Word).toInt < (0x7FFFFFFFFFFFFFFF : Word).toInt) ∧
    (0xFFFFFFFFFFFFFFFF : Word).toNat = span 0 0xFFFFFFFFFFFFFFFE := by decide
theorem witness_TossReturnsTheLowBit :
    (liveWith 0x07 5 9).STATE = some 7 ∧ (liveWith 0x07 5 9).port = .command ⟨0x07, 5, 9⟩ :: [.reset] := by decide
theorem witness_TransitionAddsGamma :
    liveIdle.STATE = some 7 ∧ isDrawing (.range 1) = true ∧ operandError (.range 1) = none := by decide
theorem witness_MixerFollowsItsSteps : 2 ^ 64 - 1 < 2 ^ 64 := by decide
theorem witness_MixerIsBijective :
    mixC1.toNat % 2 = 1 ∧ mixC2.toNat % 2 = 1 ∧
    (State.reset.writeSTATE (seedForRaw 0)).STATE = some (seedForRaw 0) := by decide
theorem witness_PeriodIsTwoToThe64 : 2 ^ 64 - 1 < 2 ^ 64 ∧ liveIdle.STATE = some 7 := by decide
theorem witness_StreamsAreDeterministicAndSeparate :
    liveIdle.STATE = (liveWith 0x03 0 0).STATE ∧ State.reset.STATE = some 0 ∧ liveIdle.STATE = some 7 ∧ (0 : Word) ≠ 7 ∧
    ∀ c ∈ [(⟨0x03, 0, 0⟩ : Command), ⟨0x05, 0, 0⟩, ⟨0xFF, 0, 0⟩], commandSeed c = none := by decide
theorem witness_STATECountsTheDraws :
    liveIdle.STATE = some 7 ∧ commandSeed ⟨0x01, 5, 0⟩ = some 5 ∧
    ∀ c ∈ [(⟨0x07, 0, 0⟩ : Command), ⟨0x06, 5, 4⟩], commandSeed c = none := by decide
theorem witness_OnlyListedCommandsWriteSTATE :
    (liveWith 0x02 5 9).STATE = some 7 ∧ (liveWith 0x02 5 9).port = .command ⟨0x02, 5, 9⟩ :: [.reset] := by decide
theorem witness_OnlyGetStateAndDrawsRevealSTATE :
    State.reset.STATE = some 0 ∧ liveIdle.STATE = some 7 ∧ decode ⟨0x05, 0, 0⟩ ≠ .ok .getstate ∧
    successfulDraw ⟨0x05, 0, 0⟩ = false := by decide
theorem witness_EachErrorCodeHasItsCause :
    (liveWith 0x06 5 4).STATE = some 7 ∧ (liveWith 0x06 5 4).port = .command ⟨0x06, 5, 4⟩ :: [.reset] := by decide
theorem witness_ErrorsLeaveNoResidue :
    stepNext (liveWith 0x05 0 9) = some ⟨some 7, [.reset], some ⟨.invalidRange, 0⟩⟩ := by decide
theorem witness_RangeStaysBelowItsBound : liveIdle.STATE = some 7 ∧ (1 : Word) ≠ 0 := by decide
theorem witness_RandIntStaysInItsInterval :
    liveIdle.STATE = some 7 ∧ (0 : Word).toNat ≤ (0xFFFFFFFFFFFFFFFF : Word).toNat ∧
    (0x8000000000000000 : Word).toInt ≤ (0x7FFFFFFFFFFFFFFF : Word).toInt := by decide
theorem witness_SpanCountsTheInterval :
    (0 : Word).toNat ≤ (0xFFFFFFFFFFFFFFFF : Word).toNat ∧
    sint 0x8000000000000000 ≤ sint 0x7FFFFFFFFFFFFFFF := by decide
theorem witness_FullSpanAddsTheRawDraw :
    ((0xFFFFFFFFFFFFFFFF : Word) - 0).toNat = 2 ^ 64 - 1 ∧ (0 : Word).toNat ≤ (0xFFFFFFFFFFFFFFFF : Word).toNat ∧
    ((0x7FFFFFFFFFFFFFFF : Word) - 0x8000000000000000).toNat = 2 ^ 64 - 1 ∧
    sint 0x8000000000000000 ≤ sint 0x7FFFFFFFFFFFFFFF ∧ liveIdle.STATE = some 7 := by decide
theorem witness_ReductionBiasIsExact :
    1 ≤ 2 ^ 64 ∧ 2 ^ 64 ≤ 2 ^ 64 ∧ 2 ^ 64 - 1 < 2 ^ 64 ∧
    (0xFFFFFFFFFFFFFFFE : Word).toNat < (0xFFFFFFFFFFFFFFFF : Word).toNat := by decide
theorem witness_DoubleEncodingIsExact : 0 < 2 ^ 53 - 1 ∧ 2 ^ 53 - 1 < 2 ^ 53 ∧ 2 ^ 52 ≤ 2 ^ 53 - 1 := by decide
theorem witness_DoubleStaysBelowOne : liveIdle.STATE = some 7 ∧ 2 ^ 53 - 1 < 2 ^ 53 := by decide
theorem witness_PortRunsCommandsInOrder :
    successfulDraw ⟨0x03, 0, 0⟩ = true ∧
    (liveIdle.withPort [.command ⟨0x03, 0, 0⟩, .command ⟨0x02, 5, 9⟩]).STATE = some 7 ∧
    (liveIdle.withPort [.command ⟨0x03, 0, 0⟩, .command ⟨0x02, 5, 9⟩]).port =
      .command ⟨0x03, 0, 0⟩ :: .command ⟨0x02, 5, 9⟩ :: [] := by decide
theorem witness_CheckpointRestoresTheStream : liveIdle.STATE = some 7 ∧ State.reset.STATE = some 0 := by decide
theorem witness_DrawsChangeWhatGetStateReturns :
    liveIdle.STATE = some 7 ∧ successfulDraw ⟨0x16, 0xFFFFFFFFFFFFFFFF, 0⟩ = true := by decide
theorem witness_InstancesShareNothing : (0 : Nat) ≠ 1 := by decide
theorem witness_WideSeedsAreMasked : liveIdle.STATE = some 7 := by decide
theorem witness_LinesAssembleToTheirTriples_unsigned :
    0 ≤ literalValue (.hex (2 ^ 64 - 1)) ∧ literalValue (.hex (2 ^ 64 - 1)) < 2 ^ 64 ∧
    0 ≤ literalValue (.decimal 0) ∧ literalValue (.decimal 0) < 2 ^ 64 ∧
    literalValue (.decimal (-1)) < 0 ∧ 2 ^ 64 ≤ literalValue (.hex (2 ^ 64)) ∧
    AsmLine.reseed (.decimal (-1)) ∈
      [AsmLine.construct (some (.decimal (-1))), .reseed (.decimal (-1)), .range (.decimal (-1))] := by decide
theorem witness_LinesAssembleToTheirTriples_signed :
    -2 ^ 63 ≤ literalValue (.decimal (-2 ^ 63)) ∧ literalValue (.decimal (-2 ^ 63)) < 0 ∧
    -2 ^ 63 ≤ literalValue (.hex (2 ^ 64 - 1)) ∧ literalValue (.hex (2 ^ 64 - 1)) < 2 ^ 64 ∧
    literalValue (.decimal (-2 ^ 63 - 1)) < -2 ^ 63 ∧ 2 ^ 64 ≤ literalValue (.decimal (2 ^ 64)) := by decide
theorem witness_LinesAssembleToTheirTriples_raw :
    0 ≤ literalValue (.hex 0xFF) ∧ literalValue (.hex 0xFF) < 2 ^ 8 ∧
    0 ≤ literalValue (.decimal 0) ∧ literalValue (.decimal 0) < 2 ^ 64 ∧
    0 ≤ literalValue (.hex (2 ^ 64 - 1)) ∧ literalValue (.hex (2 ^ 64 - 1)) < 2 ^ 64 ∧
    2 ^ 8 ≤ literalValue (.hex 0x100) := by decide

end Sys2Proof.Machine
end

/-! PROOFS. What the commands of spec/10_state.md read and write: STATE (R23 to R25), the response (R26), and other
instances (R28). -/

namespace Sys2Proof.Machine

/-! Which command is which -/

/-- The error a command is answered with, or none (R142; R144: the decode error comes first). -/
def commandError (c : Command) : Option Code :=
  match decode c with
  | .ok i => operandError i
  | .error _ => some .illegalCommand

theorem commandSeed_of_decode {c : Command} {i : Instr} (hd : decode c = .ok i) : commandSeed c = seedOf i := by
  simp [commandSeed, hd]

theorem successfulDraw_of_decode {c : Command} {i : Instr} (hd : decode c = .ok i) :
    successfulDraw c = (isDrawing i && (operandError i).isNone) := by simp [successfulDraw, hd]

theorem commandError_of_decode {c : Command} {i : Instr} (hd : decode c = .ok i) :
    commandError c = operandError i := by simp [commandError, hd]

theorem seedOf_of_isDrawing {i : Instr} (h : isDrawing i = true) : seedOf i = none := by
  cases i with
  | construct seed => cases h
  | reseed seed => cases h
  | _ => rfl

/-- Only a drawing command has an operand check that can fail, and none fails with the code OK. -/
theorem operandError_eq_some {i : Instr} {k : Code} (h : operandError i = some k) :
    isDrawing i = true ∧ k ≠ .ok := by
  cases i with
  | range n =>
    obtain ⟨-, rfl⟩ : n = 0 ∧ .invalidRange = k := by simpa [operandError, rangeError] using h
    exact ⟨rfl, by decide⟩
  | randintU low high =>
    obtain ⟨-, rfl⟩ : _ ∧ .invalidInterval = k := by simpa [operandError, intervalErrorU] using h
    exact ⟨rfl, by decide⟩
  | randintS low high =>
    obtain ⟨-, rfl⟩ : _ ∧ .invalidInterval = k := by simpa [operandError, intervalErrorS] using h
    exact ⟨rfl, by decide⟩
  | _ => cases h

theorem commandSeed_of_successfulDraw {c : Command} (h : successfulDraw c = true) : commandSeed c = none := by
  cases hd : decode c with
  | error e => simp [commandSeed, hd]
  | ok i =>
    rw [successfulDraw_of_decode hd, Bool.and_eq_true] at h
    rw [commandSeed_of_decode hd, seedOf_of_isDrawing h.1]

/-- A command that is turned away neither seeds nor draws, and is not answered OK. -/
theorem commandError_eq_some {c : Command} {k : Code} (h : commandError c = some k) :
    commandSeed c = none ∧ successfulDraw c = false ∧ k ≠ .ok := by
  cases hd : decode c with
  | error e =>
    obtain rfl : .illegalCommand = k := by simpa [commandError, hd] using h
    exact ⟨by simp [commandSeed, hd], by simp [successfulDraw, hd], by decide⟩
  | ok i =>
    rw [commandError_of_decode hd] at h
    obtain ⟨hdraw, hk⟩ := operandError_eq_some h
    exact ⟨by rw [commandSeed_of_decode hd, seedOf_of_isDrawing hdraw],
      by simp [successfulDraw_of_decode hd, h], hk⟩

theorem decode_of_commandSeed {c : Command} {seed : Word} (h : commandSeed c = some seed) :
    decode c = .ok (.construct seed) ∨ decode c = .ok (.reseed seed) := by
  cases hd : decode c with
  | error e => simp [commandSeed, hd] at h
  | ok i =>
    rw [commandSeed_of_decode hd] at h
    cases i with
    | construct v => cases h; exact .inl rfl
    | reseed v => cases h; exact .inr rfl
    | _ => cases h

/-- The seed is the operand word OPA (R62): so the two seeding branches of `decode` (R65) read it. -/
theorem commandSeed_eq_opa {c : Command} {seed : Word} (h : commandSeed c = some seed) : seed = c.opa := by
  rcases decode_of_commandSeed h with hd | hd
  all_goals
    simp only [decode] at hd
    repeat' split at hd
    all_goals simp_all

/-! What one command does -/

/-- The whole next state of every command once STATE holds a value: it seeds STATE, or is GETSTATE, or draws once, or is
turned away with its error. -/
theorem issue_cases {s : State} {x : Word} (h : s.STATE = some x) (c : Command) :
    (∃ seed, commandSeed c = some seed ∧ issue c s = .next ((s.writeSTATE seed).respond .ok 0)) ∨
    (decode c = .ok .getstate ∧ issue c s = .next (s.respond .ok x)) ∨
    (successfulDraw c = true ∧ ∃ v, issue c s = .next ((s.writeSTATE (stateTransition x)).respond .ok v)) ∨
    (∃ k, commandError c = some k ∧ issue c s = .next (s.respond k 0)) := by
  rw [issue_eq]
  cases hd : decode c with
  | error e =>
    exact .inr (.inr (.inr ⟨.illegalCommand, by simp [commandError, hd],
      (runCommand_of_error hd s).trans (raiseError_of_some h _)⟩))
  | ok i =>
    rw [runCommand_of_ok hd]
    rcases exec_of_some h i with ⟨seed, hs, he⟩ | ⟨rfl, he⟩ | ⟨k, hk, he⟩ | ⟨hi, hn, hv⟩
    · exact .inl ⟨seed, by rw [commandSeed_of_decode hd, hs], he⟩
    · exact .inr (.inl ⟨rfl, he⟩)
    · exact .inr (.inr (.inr ⟨k, by rw [commandError_of_decode hd, hk], he⟩))
    · exact .inr (.inr (.inl ⟨by simp [successfulDraw_of_decode hd, hi, hn], hv⟩))

/-- What a command leaves in STATE where it finds `x` (R23). -/
def stateAfter (x : Word) (c : Command) : Word :=
  match commandSeed c with
  | some seed => seed
  | none => if successfulDraw c then stateTransition x else x

theorem stateAfter_of_commandSeed {c : Command} {seed : Word} (h : commandSeed c = some seed) (x : Word) :
    stateAfter x c = seed := by simp [stateAfter, h]

theorem stateAfter_of_unseeded {c : Command} (h : commandSeed c = none) (x : Word) :
    stateAfter x c = if successfulDraw c then stateTransition x else x := by simp [stateAfter, h]

theorem issue_stateAfter {s : State} {x : Word} (h : s.STATE = some x) (c : Command) :
    ∃ t, issue c s = .next t ∧ t.port = s.port ∧ t.STATE = some (stateAfter x c) := by
  rcases issue_cases h c with ⟨seed, hs, he⟩ | ⟨hd, he⟩ | ⟨hdraw, v, he⟩ | ⟨k, hk, he⟩
  · exact ⟨_, he, rfl, by simp [stateAfter_of_commandSeed hs]⟩
  · have hs : commandSeed c = none := commandSeed_of_decode hd
    have hdraw : successfulDraw c = false := successfulDraw_of_decode hd
    exact ⟨_, he, rfl, by simp [stateAfter_of_unseeded hs, hdraw, h]⟩
  · have hs := commandSeed_of_successfulDraw hdraw
    exact ⟨_, he, rfl, by simp [stateAfter_of_unseeded hs, hdraw]⟩
  · obtain ⟨hs, hdraw, -⟩ := commandError_eq_some hk
    exact ⟨_, he, rfl, by simp [stateAfter_of_unseeded hs, hdraw, h]⟩

/-! STATE after a list of commands -/

/-- Once STATE holds a value a session runs to its end, and STATE goes through the commands one by one. -/
theorem session_stateAfter {s : State} {x : Word} (h : s.STATE = some x) (cs : List Command) :
    ∃ t, session cs s = .next t ∧ t.port = s.port ∧ t.STATE = some (cs.foldl stateAfter x) := by
  induction cs generalizing s x with
  | nil => exact ⟨s, rfl, rfl, h⟩
  | cons c cs ih =>
    obtain ⟨u, hu, hup, hux⟩ := issue_stateAfter h c
    obtain ⟨t, ht, htp, htx⟩ := ih hux
    exact ⟨t, by rw [session_of_next hu, ht], htp.trans hup, htx⟩

theorem drawCount_cons_of_draw {c : Command} (h : successfulDraw c = true) (cs : List Command) :
    drawCount (c :: cs) = drawCount cs + 1 := List.countP_cons_of_pos h

theorem drawCount_cons_of_not_draw {c : Command} (h : ¬successfulDraw c = true) (cs : List Command) :
    drawCount (c :: cs) = drawCount cs := List.countP_cons_of_neg h

/-- Commands that do not seed step STATE once per successful draw. -/
theorem foldl_stateAfter_of_unseeded {cs : List Command} (h : ∀ c ∈ cs, commandSeed c = none) (x : Word) :
    cs.foldl stateAfter x = stateTransition^[drawCount cs] x := by
  induction cs generalizing x with
  | nil => rfl
  | cons c cs ih =>
    obtain ⟨hc, hcs⟩ := List.forall_mem_cons.mp h
    rw [List.foldl_cons, ih hcs, stateAfter_of_unseeded hc]
    by_cases hdraw : successfulDraw c = true
    · rw [drawCount_cons_of_draw hdraw, if_pos hdraw, Function.iterate_succ_apply]
    · rw [drawCount_cons_of_not_draw hdraw, if_neg hdraw]

theorem foldl_stateAfter_eq_add {cs : List Command} (h : ∀ c ∈ cs, commandSeed c = none) (x : Word) :
    cs.foldl stateAfter x = x + BitVec.ofNat 64 (drawCount cs) * 0x9E3779B97F4A7C15 := by
  rw [foldl_stateAfter_of_unseeded h, stateTransition_iterate, gamma]

/-- What came before a seeding command does not matter (R25). -/
theorem foldl_stateAfter_of_seeded {c : Command} {seed : Word} (h : commandSeed c = some seed)
    (before after : List Command) (x : Word) :
    (before ++ c :: after).foldl stateAfter x = after.foldl stateAfter seed := by
  rw [List.foldl_append, List.foldl_cons, stateAfter_of_commandSeed h]

/-- Settles O27: a session folds `stateAfter` over its commands, and that fold counts the draws since the last seed. -/
theorem stateCountsTheDraws : Obligations.STATECountsTheDraws := by
  refine ⟨fun s x cs hs hcs => ?_, fun s x seed before after c hs hc hafter => ?_⟩
  · obtain ⟨t, ht, hport, hx⟩ := session_stateAfter hs cs
    exact ⟨t, ht, hport, by rw [hx, foldl_stateAfter_eq_add hcs]⟩
  · obtain ⟨t, ht, hport, hx⟩ := session_stateAfter hs (before ++ c :: after)
    exact ⟨t, ht, hport, by rw [hx, foldl_stateAfter_of_seeded hc, foldl_stateAfter_eq_add hafter]⟩

/-! Which commands write STATE, and which reveal it -/

/-- Settles O28: the four cases of `issue_cases`, with GETSTATE and the errors as the commands that do not write. -/
theorem onlyListedCommandsWriteSTATE : Obligations.OnlyListedCommandsWriteSTATE := by
  intro s x c rest hs hport
  have hs' : (s.withPort rest).STATE = some x := hs
  rw [step_of_command hport]
  rcases issue_cases hs' c with ⟨seed, hseed, he⟩ | ⟨hd, he⟩ | ⟨hdraw, v, he⟩ | ⟨k, hk, he⟩
  · have hopa := commandSeed_eq_opa hseed
    exact ⟨_, _, he, rfl, .inl ⟨seed, decode_of_commandSeed hseed, hopa, by simp [hopa]⟩⟩
  · exact ⟨_, _, he, rfl,
      .inr (.inr ⟨commandSeed_of_decode hd, successfulDraw_of_decode hd, hs', fun _ => hd⟩)⟩
  · exact ⟨_, _, he, rfl, .inr (.inl ⟨hdraw, rfl, rfl⟩)⟩
  · obtain ⟨hseed, hdraw, hne⟩ := commandError_eq_some hk
    exact ⟨_, _, he, rfl, .inr (.inr ⟨hseed, hdraw, hs', fun hok => absurd hok hne⟩)⟩

theorem responses_singleton_of_next {s t : State} {c : Command} (h : issue c s = .next t) :
    responses [c] s = t.response.toList := by rw [responses_of_next h, responses, List.append_nil]

/-- The response of a command that is neither GETSTATE nor a successful draw is a function of the command alone. -/
theorem responses_of_not_revealing {s : State} {x : Word} {c : Command} (hs : s.STATE = some x)
    (hget : decode c ≠ .ok .getstate) (hdraw : successfulDraw c = false) :
    responses [c] s = [⟨(commandError c).getD .ok, 0⟩] := by
  rcases issue_cases hs c with ⟨seed, hseed, he⟩ | ⟨hd, -⟩ | ⟨hdraw', -⟩ | ⟨k, hk, he⟩
  · have hnone : commandError c = none := by
      rcases decode_of_commandSeed hseed with hd | hd <;> exact commandError_of_decode hd
    simp [responses_singleton_of_next he, hnone]
  · exact absurd hd hget
  · simp [hdraw] at hdraw'
  · simp [responses_singleton_of_next he, hk]

/-- Settles O29: both responses are the one that the command alone determines. -/
theorem onlyGetStateAndDrawsRevealSTATE : Obligations.OnlyGetStateAndDrawsRevealSTATE := by
  intro s t x y c hs ht hget hdraw
  rw [responses_of_not_revealing hs hget hdraw, responses_of_not_revealing ht hget hdraw]

/-! The response of an earlier command is not held

Every shared operation reads STATE only and overwrites the response, so the one shown before it is lost. -/

theorem withSTATE_ignores_response (s : State) (r : Option Response) (f : Word → Result) :
    withSTATE { s with response := r } f = withSTATE s f := rfl

theorem raiseError_ignores_response (c : Code) (s : State) (r : Option Response) :
    raiseError c { s with response := r } = raiseError c s := rfl

theorem seedSTATE_ignores_response (seed : Word) (s : State) (r : Option Response) :
    seedSTATE seed { s with response := r } = seedSTATE seed s := rfl

theorem drawResult_ignores_response (s : State) (r : Option Response) (f : Word → Word) :
    drawResult { s with response := r } f = drawResult s f := rfl

theorem checked_drawResult_ignores_response (e : Option Code) (s : State) (r : Option Response) (f : Word → Word) :
    checked e { s with response := r } (drawResult { s with response := r } f) = checked e s (drawResult s f) := by
  cases e with
  | none => exact drawResult_ignores_response s r f
  | some c => exact raiseError_ignores_response c s r

theorem exec_ignores_response (i : Instr) (s : State) (r : Option Response) :
    exec i { s with response := r } = exec i s := by
  cases i with
  | construct seed => exact seedSTATE_ignores_response seed s r
  | reseed seed => exact seedSTATE_ignores_response seed s r
  | getstate => exact withSTATE_ignores_response s r _
  | next => exact drawResult_ignores_response s r fun v => v
  | nextdouble => exact drawResult_ignores_response s r fun v => toBinary64 (topBits v)
  | toss => exact drawResult_ignores_response s r fun v => BitVec.ofNat 64 (reduce v 2)
  | range n => exact checked_drawResult_ignores_response _ s r _
  | randintU low high => exact checked_drawResult_ignores_response _ s r _
  | randintS low high => exact checked_drawResult_ignores_response _ s r _

theorem runCommand_ignores_response (c : Command) (s : State) (r : Option Response) :
    runCommand c { s with response := r } = runCommand c s := by
  cases hd : decode c with
  | ok i => rw [runCommand_of_ok hd, runCommand_of_ok hd, exec_ignores_response]
  | error e => rw [runCommand_of_error hd, runCommand_of_error hd, raiseError_ignores_response]

theorem runEvent_ignores_response (e : PortEvent) (s : State) (r : Option Response) :
    runEvent e { s with response := r } = runEvent e s := by
  cases e with
  | reset => rfl
  | command c => exact runCommand_ignores_response c s r
  | overlap first second => rfl

theorem step_ignores_response (s : State) (r : Option Response) : step { s with response := r } = step s := by
  obtain ⟨x, port, shown⟩ := s
  cases port with
  | nil => rfl
  | cons e rest => exact runEvent_ignores_response e ⟨x, rest, shown⟩ r

/-- Settles O32: every request and every instruction overwrites the response without reading it. -/
theorem responseIsNotHeld : Obligations.ResponseIsNotHeld :=
  fun s r => ⟨step_ignores_response s r, fun i => exec_ignores_response i s r⟩

/-! Several instances -/

/-- Settles O45: a step or arrival is `List.modify` at one place, and modifications at different places commute. -/
theorem instancesShareNothing : Obligations.InstancesShareNothing := by
  refine ⟨fun b j k e hjk => ?_, fun b k => ?_, fun b j k e hjk => ?_⟩
  · exact ⟨List.getElem?_modify_ne _ b hjk.symm, List.getElem?_modify_ne _ b hjk.symm⟩
  · exact List.getElem?_modify_eq _ k b
  · exact ⟨List.modify_modify_ne _ _ b hjk, List.modify_modify_ne _ _ b hjk⟩

end Sys2Proof.Machine

/-! PROOFS. The port as the only way to STATE, one command after the other (spec/20_memory.md R44, R47), and the
checkpoint kept outside the block as bytes (R42). -/

namespace Sys2Proof.Machine

/-! What waits at the port behind a command

A command neither reads nor writes the requests behind it: with other requests there, its outcome is the same outcome
with those requests. Stated for each shared operation, and so for every command. -/

/-- The same outcome with the requests `p` still to come; a stop has no port. -/
def outcomeWithPort (p : List PortEvent) : Result → Result
  | .next s => .next (s.withPort p)
  | .fault f => .fault f
  | .refused r => .refused r

theorem withSTATE_withPort {f g : Word → Result} {p : List PortEvent} (h : ∀ x, g x = outcomeWithPort p (f x))
    (s : State) : withSTATE (s.withPort p) g = outcomeWithPort p (withSTATE s f) := by
  cases hs : s.STATE with
  | none => rw [withSTATE_of_none hs, withSTATE_of_none (s := s.withPort p) hs, outcomeWithPort]
  | some x => rw [withSTATE_of_some hs, withSTATE_of_some (s := s.withPort p) hs, h]

theorem raiseError_withPort (c : Code) (s : State) (p : List PortEvent) :
    raiseError c (s.withPort p) = outcomeWithPort p (raiseError c s) := withSTATE_withPort (by intro; rfl) s

theorem seedSTATE_withPort (seed : Word) (s : State) (p : List PortEvent) :
    seedSTATE seed (s.withPort p) = outcomeWithPort p (seedSTATE seed s) := withSTATE_withPort (by intro; rfl) s

theorem drawResult_withPort (s : State) (p : List PortEvent) (f : Word → Word) :
    drawResult (s.withPort p) f = outcomeWithPort p (drawResult s f) := withSTATE_withPort (by intro; rfl) s

theorem checked_drawResult_withPort (e : Option Code) (s : State) (p : List PortEvent) (f : Word → Word) :
    checked e (s.withPort p) (drawResult (s.withPort p) f) = outcomeWithPort p (checked e s (drawResult s f)) := by
  cases e with
  | none => exact drawResult_withPort s p f
  | some c => exact raiseError_withPort c s p

theorem exec_withPort (i : Instr) (s : State) (p : List PortEvent) :
    exec i (s.withPort p) = outcomeWithPort p (exec i s) := by
  cases i with
  | construct seed => exact seedSTATE_withPort seed s p
  | reseed seed => exact seedSTATE_withPort seed s p
  | getstate => exact withSTATE_withPort (by intro; rfl) s
  | next => exact drawResult_withPort s p fun r => r
  | nextdouble => exact drawResult_withPort s p fun r => toBinary64 (topBits r)
  | toss => exact drawResult_withPort s p fun r => BitVec.ofNat 64 (reduce r 2)
  | range n => exact checked_drawResult_withPort _ s p _
  | randintU low high => exact checked_drawResult_withPort _ s p _
  | randintS low high => exact checked_drawResult_withPort _ s p _

theorem issue_withPort (c : Command) (s : State) (p : List PortEvent) :
    issue c (s.withPort p) = outcomeWithPort p (issue c s) := by
  rw [issue_eq, issue_eq]
  cases hd : decode c with
  | ok i => rw [runCommand_of_ok hd, runCommand_of_ok hd, exec_withPort]
  | error e => rw [runCommand_of_error hd, runCommand_of_error hd, raiseError_withPort]

theorem issue_withPort_of_next {s t : State} {c : Command} (h : issue c s = .next t) (p : List PortEvent) :
    issue c (s.withPort p) = .next (t.withPort p) := by rw [issue_withPort, h, outcomeWithPort]

/-! Commands waiting at the port run as a session -/

/-- Before the first reset no command runs, legal or not (R171). -/
theorem issue_of_none {s : State} (h : s.STATE = none) (c : Command) : issue c s = .fault .beforeReset := by
  rw [issue_eq]
  cases hd : decode c with
  | ok i => rw [runCommand_of_ok hd, exec_of_none h]
  | error e => rw [runCommand_of_error hd, raiseError_of_none h]

theorem session_of_fault {s : State} {c : Command} {cs : List Command} {f : Fault} (h : issue c s = .fault f) :
    session (c :: cs) s = .fault f := by simp [session, h]

/-- The step of a command and its issue in the session part only in what they leave at the port. -/
theorem run_eq_session {s : State} {cs : List Command} {rest : List PortEvent}
    (hport : s.port = cs.map PortEvent.command ++ rest) :
    Host.Core.run core cs.length s = session cs (s.withPort rest) := by
  induction cs generalizing s with
  | nil => subst hport; rfl
  | cons c cs ih =>
    cases hs : s.STATE with
    | none =>
      have hfault (p : List PortEvent) : issue c (s.withPort p) = .fault .beforeReset :=
        issue_of_none (s := s.withPort p) hs c
      rw [session_of_fault (hfault rest)]
      exact run_of_fault core cs.length s _ ((step_of_command hport).trans (hfault _))
    | some x =>
      obtain ⟨t, ht, -⟩ := issue_stateAfter hs c
      have hstep : step s = .next (t.withPort (cs.map PortEvent.command ++ rest)) :=
        (step_of_command hport).trans (issue_withPort_of_next ht _)
      rw [session_of_next (issue_withPort_of_next ht rest)]
      exact (run_of_next core cs.length s _ hstep).trans (ih rfl)

theorem issue_of_successfulDraw {s : State} {x : Word} {c : Command} (hs : s.STATE = some x)
    (hdraw : successfulDraw c = true) :
    ∃ v, issue c s = .next ((s.writeSTATE (stateTransition x)).respond .ok v) := by
  rcases issue_cases hs c with ⟨seed, hseed, -⟩ | ⟨hd, -⟩ | ⟨-, hv⟩ | ⟨k, hk, -⟩
  · simp [commandSeed_of_successfulDraw hdraw] at hseed
  · have hget : successfulDraw c = false := successfulDraw_of_decode hd
    simp [hget] at hdraw
  · exact hv
  · obtain ⟨-, herr, -⟩ := commandError_eq_some hk
    simp [herr] at hdraw

theorem decode_getstate (a b : Word) : decode ⟨0x02, a, b⟩ = .ok .getstate := by
  simp [decode, Command.rsv, Command.sBit, Command.op]

theorem issue_getstate {s : State} {x : Word} (hs : s.STATE = some x) (a b : Word) :
    issue ⟨0x02, a, b⟩ s = .next (s.respond .ok x) :=
  (runCommand_of_ok (decode_getstate a b) s).trans (withSTATE_of_some hs _)

/-- A successful draw and then GETSTATE, which answers the stepped STATE (R47). -/
theorem session_draw_getstate {s : State} {x : Word} {c : Command} (hs : s.STATE = some x)
    (hdraw : successfulDraw c = true) (a b : Word) :
    session [c, ⟨0x02, a, b⟩] s =
      .next ((s.writeSTATE (stateTransition x)).respond .ok (stateTransition x)) := by
  obtain ⟨v, hv⟩ := issue_of_successfulDraw hs hdraw
  rw [session_of_next hv, session_of_next (issue_getstate rfl a b)]
  rfl

/-- Settles O41: the run is the session of its commands, and that session is known for a draw and GETSTATE. -/
theorem portRunsCommandsInOrder : Obligations.PortRunsCommandsInOrder := by
  refine ⟨fun cs s rest => run_eq_session rfl, fun s x a b c rest hs hdraw hport => ?_⟩
  have hrun : Host.Core.run core 2 s = session [c, ⟨0x02, a, b⟩] (s.withPort rest) :=
    run_eq_session (cs := [c, ⟨0x02, a, b⟩]) hport
  exact hrun.trans (session_draw_getstate (s := s.withPort rest) hs hdraw a b)

/-! Checkpoint bytes -/

/-- The stored byte that `restoreBytes` reads for place `j` of the word is byte `j`, whatever the order. -/
theorem storeBytes_getElem_symm (o : Equiv.Perm (Fin 8)) (v : Word) (j : Fin 8) :
    (storeBytes o v)[o.symm j] = byteOf v j := by simp [storeBytes]

theorem getLsbD_foldl_or {α : Type} (f : α → Word) (l : List α) (acc : Word) (i : Nat) :
    (l.foldl (fun acc j => acc ||| f j) acc).getLsbD i = (acc.getLsbD i || l.any fun j => (f j).getLsbD i) := by
  induction l generalizing acc with
  | nil => simp
  | cons j l ih => rw [List.foldl_cons, ih, BitVec.getLsbD_or, List.any_cons, Bool.or_assoc]

/-- Byte `k` put back in its place has the word's own bits at the eight places of byte `k`, and zeros elsewhere. -/
theorem getLsbD_byteOf_placed (v : Word) (k : Fin 8) {i : Nat} (hi : i < 64) :
    ((byteOf v k).setWidth 64 <<< (8 * k.val)).getLsbD i = (decide (i / 8 = k) && v.getLsbD i) := by
  by_cases hlow : i < 8 * k.val
  · have hk : i / 8 ≠ k := by omega
    simp [hlow, hk]
  · have hk : i - 8 * k.val < 8 ↔ i / 8 = k := by omega
    have hi' : 8 * k.val + (i - 8 * k.val) = i := by omega
    simp [byteOf, hi, hlow, hk, hi']

theorem restoreBytes_storeBytes (o : Equiv.Perm (Fin 8)) (v : Word) : restoreBytes o (storeBytes o v) = v := by
  apply BitVec.eq_of_getLsbD_eq
  intro i hi
  have hplace : ∃ j : Fin 8, i / 8 = j := ⟨⟨i / 8, by omega⟩, rfl⟩
  simp only [restoreBytes, storeBytes_getElem_symm, getLsbD_foldl_or, getLsbD_byteOf_placed v _ hi]
  rw [Bool.eq_iff_iff]
  simp [hplace]

/-- Settles O44: the byte read back for each place is the word's own, and every bit lies in one byte. -/
theorem checkpointBytesRestoreTheWord : Obligations.CheckpointBytesRestoreTheWord :=
  ⟨restoreBytes_storeBytes, restoreBytes_storeBytes Config.serialByteOrder⟩

end Sys2Proof.Machine

/-! PROOFS. The encoding of commands (spec/30_encoding.md): the opcode table (R63), the illegal words (R64), decoding
against encoding (R62, R65, R66), and the numbering of a triple as one table word (log entry 4). -/

namespace Sys2Proof.Machine

/-! The nine command words (R63), at every operand value; GETSTATE's is `decode_getstate` -/

theorem decode_construct (a b : Word) : decode ⟨0x00, a, b⟩ = .ok (.construct a) := by
  simp [decode, Command.rsv, Command.sBit, Command.op]
theorem decode_reseed (a b : Word) : decode ⟨0x01, a, b⟩ = .ok (.reseed a) := by
  simp [decode, Command.rsv, Command.sBit, Command.op]
theorem decode_next (a b : Word) : decode ⟨0x03, a, b⟩ = .ok .next := by
  simp [decode, Command.rsv, Command.sBit, Command.op]
theorem decode_nextdouble (a b : Word) : decode ⟨0x04, a, b⟩ = .ok .nextdouble := by
  simp [decode, Command.rsv, Command.sBit, Command.op]
theorem decode_range (a b : Word) : decode ⟨0x05, a, b⟩ = .ok (.range a) := by
  simp [decode, Command.rsv, Command.sBit, Command.op]
theorem decode_randintU (a b : Word) : decode ⟨0x06, a, b⟩ = .ok (.randintU a b) := by
  simp [decode, Command.rsv, Command.sBit, Command.op]
theorem decode_randintS (a b : Word) : decode ⟨0x16, a, b⟩ = .ok (.randintS a b) := by
  simp [decode, Command.rsv, Command.sBit, Command.op]
theorem decode_toss (a b : Word) : decode ⟨0x07, a, b⟩ = .ok .toss := by
  simp [decode, Command.rsv, Command.sBit, Command.op]

/-- Settles O9: one lemma per command word. -/
theorem tableWordsDecode : Obligations.TableWordsDecode := fun a b =>
  ⟨decode_construct a b, decode_reseed a b, decode_getstate a b, decode_next a b, decode_nextdouble a b,
    decode_range a b, decode_randintU a b, decode_randintS a b, decode_toss a b⟩

/-! The illegal words (R64) -/

/-- The nine command words of R63. -/
def commandWords : List Byte := [0x00, 0x01, 0x02, 0x03, 0x04, 0x05, 0x06, 0x16, 0x07]

/-- R64's three grounds for an illegal word, on the byte as a number: OP, then S with OP, then RSV (R61). -/
abbrev IllegalGround (cmd : Byte) : Prop :=
  8 ≤ cmd.toNat % 16 ∨ (cmd.toNat / 16 % 2 = 1 ∧ cmd.toNat % 16 ≠ 6) ∨ cmd.toNat / 32 ≠ 0

theorem illegalGround_iff_not_mem : ∀ cmd : Byte, IllegalGround cmd ↔ cmd ∉ commandWords := by decide

/-- The masks of WellFormed.lean and the grounds agree on every byte. -/
theorem wellFormed_iff_not_illegalGround (c : Command) : c.wellFormed = true ↔ ¬IllegalGround c.cmd := by
  have hbytes : ∀ cmd : Byte, (cmd &&& 0xE0 = 0 ∧ (cmd &&& 0x10 = 0 ∨ cmd &&& 0x0F = 6) ∧ cmd &&& 0x08 = 0) ↔
      ¬IllegalGround cmd := by decide
  rw [Laws.wellFormed_iff, hbytes]

/-! The fields of R61 as numbers -/

theorem op_toNat (c : Command) : c.op.toNat = c.cmd.toNat % 16 := by simp [Command.op]

theorem op_eq_six_iff (c : Command) : c.op = 6 ↔ c.cmd.toNat % 16 = 6 := by
  simp [BitVec.toNat_eq, op_toNat]

theorem sBit_eq_one_iff (c : Command) : c.sBit = 1 ↔ c.cmd.toNat / 16 % 2 = 1 := by
  simp [BitVec.toNat_eq, Command.sBit, Nat.shiftRight_eq_div_pow]

theorem rsv_eq_zero_iff (c : Command) : c.rsv = 0 ↔ c.cmd.toNat / 32 = 0 := by
  have := c.cmd.isLt
  simp [BitVec.toNat_eq, Command.rsv, Nat.shiftRight_eq_div_pow]
  omega

/-- The decoder of R65 rejects a command exactly on R64's grounds. -/
theorem decode_eq_error_iff (c : Command) : (∃ e, decode c = .error e) ↔ IllegalGround c.cmd := by
  simp only [decode, IllegalGround, ne_eq, op_toNat, op_eq_six_iff, sBit_eq_one_iff, rsv_eq_zero_iff]
  split
  next hrsv => exact iff_of_true ⟨_, rfl⟩ (.inr (.inr hrsv))
  next hrsv =>
    split
    next hs => exact iff_of_true ⟨_, rfl⟩ (.inr (.inl hs))
    next hs =>
      split
      case h_9 =>
        simp only [imp_false] at *
        exact iff_of_true ⟨_, rfl⟩ (by omega)
      case h_7 => exact iff_of_false (by split <;> simp) (by omega)
      all_goals exact iff_of_false (by simp) (by omega)

theorem decode_eq_ok_iff_not_error (c : Command) : (∃ i, decode c = .ok i) ↔ ¬∃ e, decode c = .error e := by
  cases decode c <;> simp

theorem decode_eq_error_iff_not_mem (c : Command) : (∃ e, decode c = .error e) ↔ c.cmd ∉ commandWords :=
  (decode_eq_error_iff c).trans (illegalGround_iff_not_mem c.cmd)

/-- 9 of the 256 bytes are command words. -/
theorem ncard_not_mem_commandWords : Set.ncard { cmd : Byte | cmd ∉ commandWords } = 247 := by
  have hcompl : { cmd : Byte | cmd ∉ commandWords } = ((commandWords.toFinset : Finset Byte) : Set Byte)ᶜ := by
    ext cmd
    simp
  have hcard : commandWords.toFinset.card = 9 := by decide
  have hbytes : Nat.card Byte = 2 ^ 8 := by
    rw [Nat.card_eq_fintype_card, ← FinEnum.card_eq_fintypeCard, FinEnum.card_bitVec]
  rw [hcompl, Set.ncard_compl, Set.ncard_coe_finset, hcard, hbytes]
  norm_num

/-- An illegal command once STATE holds a value (R141, R143): answered, and nothing else. -/
theorem step_of_illegal {s : State} {x : Word} {c : Command} {e : IllegalWord} {rest : List PortEvent}
    (hs : s.STATE = some x) (hport : s.port = .command c :: rest) (hd : decode c = .error e) :
    step s = .next { STATE := some x, port := rest, response := some ⟨.illegalCommand, 0⟩ } := by
  have hs' : (s.withPort rest).STATE = some x := hs
  rw [step_of_command hport, issue_eq, runCommand_of_error hd, raiseError_of_some hs', ← hs]
  rfl

/-- Settles O10: the decoder rejects exactly on R64's grounds, which every byte but the nine command words meets. -/
theorem illegalWordsAreAnswered : Obligations.IllegalWordsAreAnswered := by
  refine ⟨decode_eq_error_iff_not_mem, decode_eq_error_iff, fun c => ?_, fun a b => ?_,
    fun _ _ _ _ _ hs hport hd => step_of_illegal hs hport hd⟩
  · rw [wellFormed_iff_not_illegalGround, decode_eq_ok_iff_not_error, decode_eq_error_iff]
  · simpa only [decode_eq_error_iff_not_mem] using ncard_not_mem_commandWords

/-! Decode and encode agree (R62, R65, R66) -/

/-- The triple has the instruction's command word and the operands that the instruction reads (R62). -/
def EncodesAs (c : Command) (i : Instr) : Prop :=
  c.cmd = (encode i).cmd ∧ (i.readsOPA = true → c.opa = (encode i).opa) ∧ (i.readsOPB = true → c.opb = (encode i).opb)

/-- Whatever stands in the operands that the instruction does not read. -/
theorem decode_of_encodesAs {c : Command} {i : Instr} (h : EncodesAs c i) : decode c = .ok i := by
  obtain ⟨cmd, a, b⟩ := c
  obtain ⟨hcmd, hopa, hopb⟩ := h
  cases i with
  | construct seed => cases hcmd; cases hopa rfl; exact decode_construct _ b
  | reseed seed => cases hcmd; cases hopa rfl; exact decode_reseed _ b
  | getstate => cases hcmd; exact decode_getstate a b
  | next => cases hcmd; exact decode_next a b
  | nextdouble => cases hcmd; exact decode_nextdouble a b
  | range n => cases hcmd; cases hopa rfl; exact decode_range _ b
  | randintU low high => cases hcmd; cases hopa rfl; cases hopb rfl; exact decode_randintU _ _
  | randintS low high => cases hcmd; cases hopa rfl; cases hopb rfl; exact decode_randintS _ _
  | toss => cases hcmd; exact decode_toss a b

/-- A triple with one of the nine command words is of some instruction, with its operands read off the triple. -/
theorem exists_encodesAs_of_mem {c : Command} (h : c.cmd ∈ commandWords) : ∃ i, EncodesAs c i := by
  obtain ⟨cmd, a, b⟩ := c
  simp only [commandWords, List.mem_cons, List.not_mem_nil, or_false] at h
  rcases h with rfl | rfl | rfl | rfl | rfl | rfl | rfl | rfl | rfl
  · exact ⟨.construct a, by simp [EncodesAs, encode, Instr.readsOPB]⟩
  · exact ⟨.reseed a, by simp [EncodesAs, encode, Instr.readsOPB]⟩
  · exact ⟨.getstate, by simp [EncodesAs, encode, Instr.readsOPA, Instr.readsOPB]⟩
  · exact ⟨.next, by simp [EncodesAs, encode, Instr.readsOPA, Instr.readsOPB]⟩
  · exact ⟨.nextdouble, by simp [EncodesAs, encode, Instr.readsOPA, Instr.readsOPB]⟩
  · exact ⟨.range a, by simp [EncodesAs, encode, Instr.readsOPB]⟩
  · exact ⟨.randintU a b, by simp [EncodesAs, encode]⟩
  · exact ⟨.randintS a b, by simp [EncodesAs, encode]⟩
  · exact ⟨.toss, by simp [EncodesAs, encode, Instr.readsOPA, Instr.readsOPB]⟩

/-- A legal word is one of the nine, so the triple is of some instruction, and that is the one it decodes to. -/
theorem decode_eq_ok_iff (c : Command) (i : Instr) : decode c = .ok i ↔ EncodesAs c i := by
  refine ⟨fun hd => ?_, decode_of_encodesAs⟩
  have hmem : c.cmd ∈ commandWords := by
    by_contra hnot
    exact (decode_eq_ok_iff_not_error c).mp ⟨i, hd⟩ ((decode_eq_error_iff_not_mem c).mpr hnot)
  obtain ⟨j, hj⟩ := exists_encodesAs_of_mem hmem
  obtain rfl : i = j := by simpa [hd] using decode_of_encodesAs hj
  exact hj

/-! The triple as one table word (log entry 4) -/

theorem toNumber_lt (c : Command) : c.toNumber < 2 ^ 136 := by
  have := c.cmd.isLt
  have := c.opa.isLt
  have := c.opb.isLt
  simp only [Command.toNumber]
  omega

theorem toNumber_mod (c : Command) : c.toNumber % 2 ^ 8 = c.cmd.toNat := by
  have := c.cmd.isLt
  simp only [Command.toNumber]
  omega

/-- The three words stand side by side in the number, so each is read back whole. -/
theorem ofNumber_toNumber (c : Command) : Command.ofNumber c.toNumber = c := by
  obtain ⟨cmd, a, b⟩ := c
  have := cmd.isLt
  have := a.isLt
  have := b.isLt
  simp only [Command.toNumber, Command.ofNumber, Command.mk.injEq, BitVec.toNat_eq, BitVec.toNat_ofNat]
  omega

/-- A command byte alone, as the opcode table gives a row, has operand words of zeros. -/
theorem ofNumber_toNat (cmd : Byte) : Command.ofNumber cmd.toNat = ⟨cmd, 0, 0⟩ := by
  have := cmd.isLt
  simp only [Command.ofNumber, Command.mk.injEq, BitVec.toNat_eq, BitVec.toNat_ofNat, BitVec.ofNat_eq_ofNat]
  omega

theorem ofTableWord_toNumber (c : Command) : Command.ofTableWord 136 c.toNumber = c := by
  rw [Command.ofTableWord, Nat.mod_eq_of_lt (toNumber_lt c), ofNumber_toNumber]

/-- Settles O12: the number of a triple holds its three words side by side, the command byte lowest. -/
theorem tableWordHoldsTheTriple : Obligations.TableWordHoldsTheTriple := by
  refine ⟨ofTableWord_toNumber, fun c => ?_⟩
  rw [Command.ofTableWord, toNumber_mod, ofNumber_toNat]

theorem decodeTableWord_eq_some_iff (nbits w : Nat) (i : Instr) :
    decodeTableWord nbits w = some i ↔ decode (Command.ofTableWord nbits w) = .ok i := by
  rw [decodeTableWord]
  cases decode (Command.ofTableWord nbits w) <;> simp [Except.toOption]

/-- Settles O11: `decode_eq_ok_iff`, and the table word of a triple reads back as the triple. -/
theorem decodeEncodeAgree : Obligations.DecodeEncodeAgree := fun i c _ =>
  ⟨decode_eq_ok_iff c i, by rw [decodeTableWord_eq_some_iff, ofTableWord_toNumber]⟩

/-! What a step does with a command -/

theorem step_of_decode {s : State} {c : Command} {i : Instr} {rest : List PortEvent}
    (hport : s.port = .command c :: rest) (hd : decode c = .ok i) : step s = exec i (s.withPort rest) := by
  rw [step_of_command hport, issue_eq, runCommand_of_ok hd]

/-- Settles O8: the port's oldest command runs, and withFetchWord puts a command there. -/
theorem stepRunsDecodedCommand : Obligations.StepRunsDecodedCommand :=
  ⟨fun _ _ _ _ hport hd => step_of_decode hport hd,
    fun _ nbits w i hd => step_of_decode rfl ((decodeTableWord_eq_some_iff nbits w i).mp hd)⟩

/-- Commands that decode to the same instruction run the same. -/
theorem step_eq_of_decode {s : State} {rest : List PortEvent} {c d : Command} {i : Instr}
    (hc : decode c = .ok i) (hd : decode d = .ok i) :
    step { s with port := .command c :: rest } = step { s with port := .command d :: rest } := by
  rw [step_of_decode rfl hc, step_of_decode rfl hd]
  rfl

/-- Where both readings are ordered neither check fails, and the effect is one formula (D10). -/
theorem execRandintU_eq_execRandintS {low high : Word} (hU : low.toNat ≤ high.toNat) (hS : sint low ≤ sint high)
    (s : State) : execRandintU low high s = execRandintS low high s := by
  rw [execRandintU, execRandintS, intervalErrorU_eq_none.mpr hU, intervalErrorS_eq_none.mpr hS]

/-- Settles O13: the decoded instruction holds no ignored operand (log entry 11). -/
theorem ignoredOperandsHaveNoEffect : Obligations.IgnoredOperandsHaveNoEffect := by
  refine ⟨fun s rest cmd a a' b b' hcmd => ?_, fun s rest cmd a b b' hcmd => ?_,
    fun s low high hU hS => execRandintU_eq_execRandintS hU hS s⟩
  · simp only [List.mem_cons, List.not_mem_nil, or_false] at hcmd
    rcases hcmd with rfl | rfl | rfl | rfl
    · exact step_eq_of_decode (decode_getstate a b) (decode_getstate a' b')
    · exact step_eq_of_decode (decode_next a b) (decode_next a' b')
    · exact step_eq_of_decode (decode_nextdouble a b) (decode_nextdouble a' b')
    · exact step_eq_of_decode (decode_toss a b) (decode_toss a' b')
  · simp only [List.mem_cons, List.not_mem_nil, or_false] at hcmd
    rcases hcmd with rfl | rfl | rfl
    · exact step_eq_of_decode (decode_construct a b) (decode_construct a b')
    · exact step_eq_of_decode (decode_reseed a b) (decode_reseed a b')
    · exact step_eq_of_decode (decode_range a b) (decode_range a b')

end Sys2Proof.Machine

/-! PROOFS. The assembler (spec/30_encoding.md R66, R67) and the text of a triple (R68). -/

namespace Sys2Proof.Machine

/-! Literals in range (R66), and the lines that are made of them -/

theorem literalValue_decimal (v : Int) : literalValue (.decimal v) = v := rfl
theorem literalValue_hex (n : Nat) : literalValue (.hex n) = n := rfl

/-- A negative literal in RANDINT.S's range is its two's-complement word, any other its number. -/
theorem literalWord_of_signedInRange {l : Literal} (low : -2 ^ 63 ≤ literalValue l) (high : literalValue l < 2 ^ 64) :
    (0 ≤ literalValue l → ((literalWord l).toNat : Int) = literalValue l) ∧
      (literalValue l < 0 → (literalWord l).toInt = literalValue l) :=
  ⟨fun h => literalWord_toNat h high, fun h => literalWord_toInt low (by omega)⟩

theorem assemble_operand_ok {l : Literal} (h : unsignedInRange 64 l = true) :
    assemble (.construct (some l)) = .ok ⟨0x00, literalWord l, 0⟩ ∧
      assemble (.reseed l) = .ok ⟨0x01, literalWord l, 0⟩ ∧ assemble (.range l) = .ok ⟨0x05, literalWord l, 0⟩ :=
  ⟨assemble_ok h, assemble_ok h, assemble_ok h⟩

theorem assemble_randintU_ok {low high : Literal} (hlow : unsignedInRange 64 low = true)
    (hhigh : unsignedInRange 64 high = true) :
    assemble (.randintU low high) = .ok ⟨0x06, literalWord low, literalWord high⟩ :=
  assemble_ok (by simp [AsmLine.wellFormed, hlow, hhigh])

theorem assemble_randintS_ok {low high : Literal} (hlow : signedInRange low = true)
    (hhigh : signedInRange high = true) :
    assemble (.randintS low high) = .ok ⟨0x16, literalWord low, literalWord high⟩ :=
  assemble_ok (by simp [AsmLine.wellFormed, hlow, hhigh])

theorem assemble_raw_ok {byte a b : Literal} (hbyte : unsignedInRange 8 byte = true)
    (ha : unsignedInRange 64 a = true) (hb : unsignedInRange 64 b = true) :
    assemble (.raw byte a b) = .ok ⟨BitVec.ofInt 8 (literalValue byte), literalWord a, literalWord b⟩ :=
  assemble_ok (by simp [AsmLine.wellFormed, hbyte, ha, hb])

/-- Settles O47: each line's literals are in range or one of them is not, and that decides the line. -/
theorem linesAssembleToTheirTriples : Obligations.LinesAssembleToTheirTriples := by
  refine ⟨⟨literalValue_decimal, literalValue_hex⟩, fun l hl hl' => ?_, fun l hout line hline => ?_,
    fun low high hlow hlow' hhigh hhigh' => ?_, fun low high hout => ?_,
    fun low high hlow hlow' hhigh hhigh' => ?_, fun low high hout => ?_,
    fun byte a b hbyte hbyte' ha ha' hb hb' => ?_, fun byte a b hout => ?_,
    ⟨rfl, decode_getstate 0 0⟩, ⟨rfl, decode_next 0 0⟩, ⟨rfl, decode_nextdouble 0 0⟩, ⟨rfl, decode_toss 0 0⟩⟩
  · obtain ⟨hconstruct, hreseed, hrange⟩ := assemble_operand_ok ((unsignedInRange_iff 64 l).mpr ⟨hl, hl'⟩)
    exact ⟨literalWord l, literalWord_toNat hl hl', ⟨hconstruct, decode_construct _ 0⟩,
      ⟨hreseed, decode_reseed _ 0⟩, ⟨hrange, decode_range _ 0⟩⟩
  · have hbad : ¬unsignedInRange 64 l = true := by
      rw [unsignedInRange_iff]
      omega
    simp only [List.mem_cons, List.not_mem_nil, or_false] at hline
    rcases hline with rfl | rfl | rfl
    all_goals exact assemble_error hbad
  · exact ⟨literalWord low, literalWord high, literalWord_toNat hlow hlow', literalWord_toNat hhigh hhigh',
      assemble_randintU_ok ((unsignedInRange_iff 64 low).mpr ⟨hlow, hlow'⟩)
        ((unsignedInRange_iff 64 high).mpr ⟨hhigh, hhigh'⟩), decode_randintU _ _⟩
  · apply assemble_error
    simp only [AsmLine.wellFormed, Bool.and_eq_true, unsignedInRange_iff]
    omega
  · obtain ⟨hlowNat, hlowInt⟩ := literalWord_of_signedInRange hlow hlow'
    obtain ⟨hhighNat, hhighInt⟩ := literalWord_of_signedInRange hhigh hhigh'
    exact ⟨literalWord low, literalWord high, hlowNat, hlowInt, hhighNat, hhighInt,
      assemble_randintS_ok ((signedInRange_iff low).mpr ⟨hlow, hlow'⟩)
        ((signedInRange_iff high).mpr ⟨hhigh, hhigh'⟩), decode_randintS _ _⟩
  · apply assemble_error
    simp only [AsmLine.wellFormed, Bool.and_eq_true, signedInRange_iff]
    omega
  · exact ⟨_, ofInt_toNat_of_range hbyte hbyte', literalWord_toNat ha ha', literalWord_toNat hb hb',
      assemble_raw_ok ((unsignedInRange_iff 8 byte).mpr ⟨hbyte, hbyte'⟩)
        ((unsignedInRange_iff 64 a).mpr ⟨ha, ha'⟩) ((unsignedInRange_iff 64 b).mpr ⟨hb, hb'⟩)⟩
  · apply assemble_error
    simp only [AsmLine.wellFormed, Bool.and_eq_true, unsignedInRange_iff]
    omega

/-! The pseudo-instructions (R67) -/

theorem unsignedInRange_hex_toNat {bits : Nat} (v : BitVec bits) : unsignedInRange bits (.hex v.toNat) = true :=
  (unsignedInRange_iff bits _).mpr ⟨Int.natCast_nonneg _, by rw [literalValue_hex]; exact_mod_cast v.isLt⟩

theorem ofInt_hex_toNat {bits : Nat} (v : BitVec bits) : BitVec.ofInt bits (literalValue (.hex v.toNat)) = v := by
  rw [literalValue_hex, BitVec.ofInt_natCast, BitVec.ofNat_toNat, BitVec.setWidth_eq]

/-- Settles O48: the number of a word is in range and reads back as the word. -/
theorem pseudoInstructionsAssemble : Obligations.PseudoInstructionsAssemble := by
  refine ⟨by decide, fun c => ?_⟩
  rw [assemble_raw_ok (unsignedInRange_hex_toNat c.cmd) (unsignedInRange_hex_toNat c.opa)
    (unsignedInRange_hex_toNat c.opb), literalWord, literalWord, ofInt_hex_toNat, ofInt_hex_toNat, ofInt_hex_toNat]

/-! The text of a triple (R68) -/

theorem length_hexDigits (count v : Nat) : (hexDigits count v).length = count := by
  induction count generalizing v with
  | zero => rfl
  | succ count ih => rw [hexDigits, List.length_append, ih, List.length_singleton]

theorem hexDigit_injOn : ∀ d < 16, ∀ e < 16, hexDigit d = hexDigit e → d = e := by decide

/-- The digits determine the number they can hold. -/
theorem eq_of_hexDigits_eq {count v w : Nat} (hv : v < 16 ^ count) (hw : w < 16 ^ count)
    (h : hexDigits count v = hexDigits count w) : v = w := by
  induction count generalizing v w with
  | zero => omega
  | succ count ih =>
    obtain ⟨hhigh, hlow⟩ := List.append_inj' h rfl
    have hquot : v / 16 = w / 16 := ih (by omega) (by omega) hhigh
    have hrem : v % 16 = w % 16 :=
      hexDigit_injOn _ (Nat.mod_lt _ (by decide)) _ (Nat.mod_lt _ (by decide)) (List.singleton_inj.mp hlow)
    omega

/-- So do the digits of a word of four bits a digit. -/
theorem eq_of_hexDigits_toNat_eq {count : Nat} {v w : BitVec (4 * count)}
    (h : hexDigits count v.toNat = hexDigits count w.toNat) : v = w := by
  have hpow : 2 ^ (4 * count) = 16 ^ count := by rw [pow_mul]; norm_num
  exact BitVec.eq_of_toNat_eq (eq_of_hexDigits_eq (hpow ▸ v.isLt) (hpow ▸ w.isLt) h)

theorem length_commandText (c : Command) : (commandText c).length = 36 := by
  simp [commandText, length_hexDigits]

/-- The three fields have fixed lengths, so equal texts have equal fields. -/
theorem commandText_injective : Function.Injective commandText := by
  intro c d h
  obtain ⟨hhead, hopb⟩ := List.append_inj h (by simp [length_hexDigits])
  obtain ⟨hcmd, hopa⟩ := List.append_inj hhead (by simp [length_hexDigits])
  have hcmd' : c.cmd = d.cmd := eq_of_hexDigits_toNat_eq (count := 2) hcmd
  have hopa' : c.opa = d.opa := eq_of_hexDigits_toNat_eq (count := 16) (List.tail_eq_of_cons_eq hopa)
  have hopb' : c.opb = d.opb := eq_of_hexDigits_toNat_eq (count := 16) (List.tail_eq_of_cons_eq hopb)
  cases c
  cases d
  rw [Command.mk.injEq]
  exact ⟨hcmd', hopa', hopb'⟩

/-- Settles O49: three fields of fixed length between two colons, each the digits of its word. -/
theorem tripleTextIsFaithful : Obligations.TripleTextIsFaithful := ⟨length_commandText, commandText_injective⟩

end Sys2Proof.Machine

/-! PROOFS. CONSTRUCT, RESEED and GETSTATE (spec/40_state_access.md): seeding (R80, R81, R83), reading STATE (R82), and
checkpoints (R84, R85). -/

namespace Sys2Proof.Machine

/-! The responses depend on STATE alone (R20) -/

/-- Instances with the same STATE part only in what waits at their ports. -/
theorem issue_of_STATE_eq {s t : State} (h : t.STATE = s.STATE) (c : Command) :
    issue c t = outcomeWithPort t.port (issue c s) := by
  have ht : t = { s with response := t.response }.withPort t.port := by
    rw [State.withPort, ← h]
  calc issue c t
      = issue c ({ s with response := t.response }.withPort t.port) := congrArg (issue c) ht
    _ = outcomeWithPort t.port (issue c { s with response := t.response }) := issue_withPort c _ _
    _ = outcomeWithPort t.port (issue c s) :=
        congrArg (outcomeWithPort t.port) (runCommand_ignores_response c s t.response)

theorem responses_of_fault {s : State} {c : Command} {cs : List Command} {f : Fault} (h : issue c s = .fault f) :
    responses (c :: cs) s = [] := by simp [responses, h]

theorem responses_of_STATE_eq {s t : State} (h : t.STATE = s.STATE) (cs : List Command) :
    responses cs t = responses cs s := by
  induction cs generalizing s t with
  | nil => rfl
  | cons c cs ih =>
    cases hs : s.STATE with
    | none =>
      rw [responses_of_fault (issue_of_none hs c), responses_of_fault (issue_of_none (h.trans hs) c)]
    | some x =>
      obtain ⟨u, hu, -⟩ := issue_stateAfter hs c
      have ht : issue c t = .next (u.withPort t.port) := by rw [issue_of_STATE_eq h, hu, outcomeWithPort]
      rw [responses_of_next hu, responses_of_next ht, ih (u.withPort_STATE t.port), State.withPort_response]

/-! The two seeding commands (R80, R81) -/

theorem commandSeed_construct (seed b : Word) : commandSeed ⟨0x00, seed, b⟩ = some seed :=
  commandSeed_of_decode (decode_construct seed b)

theorem commandSeed_reseed (seed b : Word) : commandSeed ⟨0x01, seed, b⟩ = some seed :=
  commandSeed_of_decode (decode_reseed seed b)

theorem exec_construct {s : State} {x : Word} (hs : s.STATE = some x) (seed : Word) :
    exec (.construct seed) s = .next ((s.writeSTATE seed).respond .ok 0) := seedSTATE_of_some hs seed

theorem exec_reseed {s : State} {x : Word} (hs : s.STATE = some x) (seed : Word) :
    exec (.reseed seed) s = .next ((s.writeSTATE seed).respond .ok 0) := seedSTATE_of_some hs seed

theorem issue_of_commandSeed {s : State} {x seed : Word} {c : Command} (hs : s.STATE = some x)
    (hc : commandSeed c = some seed) : issue c s = .next ((s.writeSTATE seed).respond .ok 0) := by
  rw [issue_eq]
  rcases decode_of_commandSeed hc with hd | hd
  · rw [runCommand_of_ok hd, exec_construct hs]
  · rw [runCommand_of_ok hd, exec_reseed hs]

theorem step_of_commandSeed {s : State} {x seed : Word} {c : Command} {rest : List PortEvent}
    (hs : s.STATE = some x) (hc : commandSeed c = some seed) (hport : s.port = .command c :: rest) :
    step s = .next { STATE := some seed, port := rest, response := some ⟨.ok, 0⟩ } :=
  (step_of_command hport).trans (issue_of_commandSeed (s := s.withPort rest) hs hc)

/-- What a seeding command leaves of the instance is its seed, so what follows is answered alike on every instance. -/
theorem responses_of_commandSeed {s t : State} {x y seed : Word} {c d : Command} (hs : s.STATE = some x)
    (ht : t.STATE = some y) (hc : commandSeed c = some seed) (hd : commandSeed d = some seed) (cs : List Command) :
    responses (c :: cs) s = responses (d :: cs) t := by
  have hsame : ((s.writeSTATE seed).respond .ok 0).STATE = ((t.writeSTATE seed).respond .ok 0).STATE := rfl
  rw [responses_of_next (issue_of_commandSeed hs hc), responses_of_next (issue_of_commandSeed ht hd),
    responses_of_STATE_eq hsame, State.respond_response, State.respond_response]

/-! GETSTATE (R82) -/

theorem exec_getstate {s : State} {x : Word} (hs : s.STATE = some x) : exec .getstate s = .next (s.respond .ok x) :=
  withSTATE_of_some hs _

theorem responses_getstate_cons {s : State} {x : Word} (hs : s.STATE = some x) (a b : Word) (cs : List Command) :
    responses (⟨0x02, a, b⟩ :: cs) s = ⟨.ok, x⟩ :: responses cs s := by
  rw [responses_of_next (issue_getstate hs a b), responses_of_STATE_eq (State.respond_STATE s .ok x)]
  rfl

theorem responses_getstate {s : State} {x : Word} (hs : s.STATE = some x) (a b : Word) :
    responses [⟨0x02, a, b⟩] s = [⟨.ok, x⟩] := responses_getstate_cons hs a b []

theorem responses_seed_getstate {s : State} {x seed : Word} {c : Command} (hs : s.STATE = some x)
    (hc : commandSeed c = some seed) (a b : Word) : responses [c, ⟨0x02, a, b⟩] s = [⟨.ok, 0⟩, ⟨.ok, seed⟩] := by
  rw [responses_of_next (issue_of_commandSeed hs hc), responses_getstate (x := seed) rfl]
  rfl

theorem step_getstate {s : State} {x a b : Word} {rest : List PortEvent} (hs : s.STATE = some x)
    (hport : s.port = .command ⟨0x02, a, b⟩ :: rest) :
    step s = .next { STATE := some x, port := rest, response := some ⟨.ok, x⟩ } := by
  rw [step_of_command hport, issue_getstate (s := s.withPort rest) hs, ← hs]
  rfl

/-- STATE after successful draws only: each steps it once. -/
theorem session_of_successfulDraws {s : State} {x : Word} (hs : s.STATE = some x) {cs : List Command}
    (hcs : ∀ c ∈ cs, successfulDraw c = true) :
    ∃ t, session cs s = .next t ∧ t.STATE = some (x + BitVec.ofNat 64 cs.length * 0x9E3779B97F4A7C15) := by
  have hcount : drawCount cs = cs.length := List.countP_eq_length.mpr hcs
  have hunseeded : ∀ c ∈ cs, commandSeed c = none := fun c hc => commandSeed_of_successfulDraw (hcs c hc)
  obtain ⟨t, ht, -, hx⟩ := session_stateAfter hs cs
  exact ⟨t, ht, by rw [hx, foldl_stateAfter_eq_add hunseeded, hcount]⟩

/-! The statements of R80 to R85 -/

/-- Settles O15: RESEED writes the seed, and the responses after it depend on STATE alone. -/
theorem reseedSeedsSTATE : Obligations.ReseedSeedsSTATE := by
  refine ⟨fun s x seed hs => ⟨exec_reseed hs seed, fun b rest hport => ?_⟩, fun s t x hs ht cs => ?_,
    fun s t x y seed b cs hs ht => ?_⟩
  · exact step_of_commandSeed hs (commandSeed_reseed seed b) hport
  · obtain rfl : (s.writeSTATE x).respond .ok 0 = t := by simpa [exec_reseed hs] using ht
    exact responses_of_STATE_eq hs.symm cs
  · exact responses_of_commandSeed hs ht (commandSeed_construct seed b) (commandSeed_reseed seed b) cs

/-- Settles O16: GETSTATE answers STATE as it stands, which is the seed or what the draws have made of it. -/
theorem getStateReturnsSTATE : Obligations.GetStateReturnsSTATE := by
  intro s x hs
  refine ⟨exec_getstate hs, fun a b rest hport => step_getstate hs hport, fun a b => ?_,
    fun cmd seed a b hcmd => ?_, fun cs hcs => ?_⟩
  · rw [responses_getstate_cons hs, responses_getstate hs]
  · simp only [List.mem_cons, List.not_mem_nil, or_false] at hcmd
    rcases hcmd with rfl | rfl
    · exact responses_seed_getstate hs (commandSeed_construct seed b) a b
    · exact responses_seed_getstate hs (commandSeed_reseed seed b) a b
  · obtain ⟨t, ht, hx⟩ := session_of_successfulDraws hs hcs
    exact ⟨t, _, ht, exec_getstate hx, rfl⟩

/-- Settles O42: the word is the STATE of the first instance, and RESEED gives the second that STATE. -/
theorem checkpointRestoresTheStream : Obligations.CheckpointRestoresTheStream := by
  intro s t x y a b hs ht
  have hrestored : ((t.writeSTATE x).respond .ok 0).STATE = (s.respond .ok x).STATE := hs.symm
  exact ⟨_, _, x, issue_getstate hs a b, rfl, issue_of_commandSeed ht (commandSeed_reseed x b), hrestored,
    responses_of_STATE_eq hrestored⟩

/-- GAMMA is not 0 modulo 2^64. -/
theorem stateTransition_ne_self (x : Word) : stateTransition x ≠ x := by
  have hgamma : gamma ≠ 0 := by decide
  exact add_eq_left.not.mpr hgamma

/-- Settles O43: the draw between the two GETSTATEs steps STATE, and a step by GAMMA changes it. -/
theorem drawsChangeWhatGetStateReturns : Obligations.DrawsChangeWhatGetStateReturns := by
  refine ⟨fun s x seed a b hs => responses_seed_getstate hs (commandSeed_construct seed b) a b,
    fun s x a b c hs hdraw => ?_⟩
  obtain ⟨v, hv⟩ := issue_of_successfulDraw hs hdraw
  refine ⟨⟨.ok, v⟩, stateTransition x, ?_, stateTransition_ne_self x⟩
  rw [responses_getstate_cons hs, responses_of_next hv, responses_getstate (x := stateTransition x) rfl]
  rfl

/-- Settles O14: CONSTRUCT is the seeding that RESEED is (R80, R81). -/
theorem constructSeedsSTATE : Obligations.ConstructSeedsSTATE := by
  intro s x seed hs
  refine ⟨exec_construct hs seed, (exec_construct hs seed).trans (exec_reseed hs seed).symm, fun a b => ?_,
    fun b rest hport => ?_⟩
  · exact responses_seed_getstate hs (commandSeed_construct seed a) a b
  · exact step_of_commandSeed hs (commandSeed_construct seed b) hport

/-- Settles O46: the driven word is the number modulo 2^64, and seeding has no operand check. -/
theorem wideSeedsAreMasked : Obligations.WideSeedsAreMasked := by
  intro v s x hs
  refine ⟨BitVec.toNat_ofNat v 64, fun i hi => ?_⟩
  simp only [List.mem_cons, List.not_mem_nil, or_false] at hi
  rcases hi with rfl | rfl
  · exact exec_construct hs (driveSeed v)
  · exact exec_reseed hs (driveSeed v)

end Sys2Proof.Machine

/-! PROOFS. The state transition T, the mixer M and NEXT (spec/41_state_transition_mixer.md): what they compute (R90,
R91, R93, R97), that T and M are bijections (R95), and so the period (R94) and the separation of streams (R96). -/

namespace Sys2Proof.Machine

/-! T (R90) -/

theorem stateTransition_toNat (x : Word) : (stateTransition x).toNat = (x.toNat + 0x9E3779B97F4A7C15) % 2 ^ 64 := by
  rw [stateTransition, BitVec.toNat_add, gamma_toNat]

/-- The rules' way to write T, with the number of GAMMA. -/
theorem stateTransition_eq_add (x : Word) : stateTransition x = x + 0x9E3779B97F4A7C15 := by
  rw [stateTransition, gamma]

theorem gamma_odd : gamma.toNat % 2 = 1 := by rw [gamma_toNat]

theorem stateTransition_injective : Function.Injective stateTransition := add_left_injective gamma

/-- R92: a drawing instruction past its operand check steps STATE by T, since it is none of the other three kinds. -/
theorem exec_of_isDrawing {s : State} {x : Word} {i : Instr} (hs : s.STATE = some x) (hdraw : isDrawing i = true)
    (hcheck : operandError i = none) :
    ∃ v, exec i s = .next ((s.writeSTATE (stateTransition x)).respond .ok v) := by
  rcases exec_of_some hs i with ⟨seed, hseed, -⟩ | ⟨rfl, -⟩ | ⟨k, hk, -⟩ | ⟨-, -, hv⟩
  · simp [seedOf_of_isDrawing hdraw] at hseed
  · cases hdraw
  · simp [hcheck] at hk
  · exact hv

/-- Settles O22: T is the wrapping addition of the odd GAMMA, and a draw's whole next state has T in STATE. -/
theorem transitionAddsGamma : Obligations.TransitionAddsGamma := by
  refine ⟨stateTransition_toNat, gamma_odd, fun i s x hs hdraw hcheck => ?_⟩
  obtain ⟨v, hv⟩ := exec_of_isDrawing hs hdraw hcheck
  exact ⟨_, hv, rfl⟩

/-! M's steps as numbers (R91), and the worked trace (R97) -/

/-- A step of the mixer on numbers: `*` keeps the low 64 bits of the product. -/
theorem xorShift_mul_toNat (z c : Word) (k : Nat) :
    (xorShift z k * c).toNat = ((z.toNat ^^^ (z.toNat / 2 ^ k)) * c.toNat) % 2 ^ 64 := by
  rw [BitVec.toNat_mul, xorShift_toNat]

/-- Settles O23: the three steps one after the other, on numbers; the trace is about closed words. -/
theorem mixerFollowsItsSteps : Obligations.MixerFollowsItsSteps := by
  refine ⟨fun z z1 z2 hz hz1 hz2 => ?_, by decide, by decide, by decide, by decide, by decide, by decide⟩
  rw [outputMixer_eq, xorShift_toNat, xorShift_mul_toNat, xorShift_mul_toNat, BitVec.toNat_ofNat,
    Nat.mod_eq_of_lt hz, mixC1_toNat, mixC2_toNat, ← hz1, ← hz2]

/-! M is a bijection (R95) -/

/-- Each round of `unxs` moves what is still wrong `k` places down. -/
theorem xor_unxsRounds_xorShift (x w : Word) (k count : Nat) :
    x ^^^ unxsRounds (xorShift x k) k count w = (x ^^^ w) >>> (k * count) := by
  induction count generalizing w with
  | zero => rw [unxsRounds, Nat.mul_zero, BitVec.ushiftRight_zero]
  | succ count ih =>
    have hround : x ^^^ (xorShift x k ^^^ w >>> k) = (x ^^^ w) >>> k := by
      rw [xorShift, BitVec.ushiftRight_xor_distrib, BitVec.xor_assoc, ← BitVec.xor_assoc x x, BitVec.xor_self,
        BitVec.zero_xor]
    rw [unxsRounds, ih, hround, ← BitVec.shiftRight_add, Nat.mul_succ, Nat.add_comm]

/-- After ceil(64/k) rounds it has left the word. -/
theorem unxs_xorShift (x : Word) {k : Nat} (hk : 1 ≤ k) : unxs (xorShift x k) k = x := by
  have hrounds : 64 ≤ k * ((64 + k - 1) / k) := by
    have := Nat.lt_mul_div_succ (64 + k - 1) hk
    rw [Nat.mul_succ] at this
    omega
  have hdone := xor_unxsRounds_xorShift x (xorShift x k) k ((64 + k - 1) / k)
  rw [BitVec.ushiftRight_eq_zero hrounds, BitVec.xor_eq_zero_iff] at hdone
  exact hdone.symm

theorem xorShift_bijective {k : Nat} (hk : 1 ≤ k) : Function.Bijective fun z => xorShift z k :=
  have hinv : Function.LeftInverse (fun y => unxs y k) (fun z => xorShift z k) := fun x => unxs_xorShift x hk
  hinv.injective.bijective_of_finite

/-- An odd constant has no factor in common with 2^64. -/
theorem mul_odd_injective {c : Word} (hc : c.toNat % 2 = 1) : Function.Injective fun z : Word => z * c := by
  intro z w h
  have hcoprime : Nat.Coprime (2 ^ 64) c.toNat :=
    Nat.Coprime.pow_left 64 (Nat.coprime_two_left.mpr (Nat.odd_iff.mpr hc))
  have hmod : z.toNat * c.toNat ≡ w.toNat * c.toNat [MOD 2 ^ 64] := by
    rw [Nat.ModEq, ← BitVec.toNat_mul, ← BitVec.toNat_mul]
    exact congrArg BitVec.toNat h
  have hcancel : z.toNat ≡ w.toNat [MOD 2 ^ 64] := Nat.ModEq.cancel_right_of_coprime hcoprime hmod
  exact BitVec.eq_of_toNat_eq (hcancel.eq_of_lt_of_lt z.isLt w.isLt)

theorem mul_odd_bijective {c : Word} (hc : c.toNat % 2 = 1) : Function.Bijective fun z : Word => z * c :=
  (mul_odd_injective hc).bijective_of_finite

theorem mixC1_mul_mixC1Inv : mixC1 * mixC1Inv = 1 := by decide
theorem mixC2_mul_mixC2Inv : mixC2 * mixC2Inv = 1 := by decide

/-- The inverse undoes the five steps, the last one first. -/
theorem outputMixerInv_outputMixer (z : Word) : outputMixerInv (outputMixer z) = z := by
  rw [outputMixer_eq, outputMixerInv, unxs_xorShift _ (by decide), BitVec.mul_assoc, mixC2_mul_mixC2Inv,
    mul_one, unxs_xorShift _ (by decide), BitVec.mul_assoc, mixC1_mul_mixC1Inv, mul_one,
    unxs_xorShift _ (by decide)]

theorem outputMixer_injective : Function.Injective outputMixer :=
  Function.LeftInverse.injective outputMixerInv_outputMixer

theorem outputMixer_bijective : Function.Bijective outputMixer := outputMixer_injective.bijective_of_finite

/-- A left inverse of a bijection is its right inverse too. -/
theorem outputMixer_outputMixerInv (r : Word) : outputMixer (outputMixerInv r) = r :=
  Function.LeftInverse.rightInverse_of_surjective outputMixerInv_outputMixer outputMixer_bijective.surjective r

theorem stateTransition_seedForRaw (r : Word) : stateTransition (seedForRaw r) = outputMixerInv r :=
  sub_add_cancel _ gamma

theorem outputMixer_stateTransition_seedForRaw (r : Word) : outputMixer (stateTransition (seedForRaw r)) = r := by
  rw [stateTransition_seedForRaw, outputMixer_outputMixerInv]

/-! NEXT (R93) -/

theorem exec_next {s : State} {x : Word} (hs : s.STATE = some x) :
    exec .next s = .next ((s.writeSTATE (stateTransition x)).respond .ok (outputMixer (stateTransition x))) :=
  drawResult_of_some hs fun r => r

theorem issue_next {s : State} {x : Word} (hs : s.STATE = some x) (a b : Word) :
    issue ⟨0x03, a, b⟩ s =
      .next ((s.writeSTATE (stateTransition x)).respond .ok (outputMixer (stateTransition x))) :=
  (runCommand_of_ok (decode_next a b) s).trans (exec_next hs)

theorem step_next {s : State} {x a b : Word} {rest : List PortEvent} (hs : s.STATE = some x)
    (hport : s.port = .command ⟨0x03, a, b⟩ :: rest) :
    step s = .next { STATE := some (stateTransition x), port := rest,
                     response := some ⟨.ok, outputMixer (stateTransition x)⟩ } :=
  (step_of_command hport).trans (issue_next (s := s.withPort rest) hs a b)

theorem responses_next_cons {s : State} {x : Word} (hs : s.STATE = some x) (a b : Word) (cs : List Command) :
    responses (⟨0x03, a, b⟩ :: cs) s =
      ⟨.ok, outputMixer (stateTransition x)⟩ :: responses cs (s.writeSTATE (stateTransition x)) := by
  rw [responses_of_next (issue_next hs a b), responses_of_STATE_eq (State.respond_STATE _ _ _)]
  rfl

/-- Settles O17: NEXT is one draw with the raw value as its result, and `seedForRaw` reaches every result. -/
theorem nextReturnsTheRawDraw : Obligations.NextReturnsTheRawDraw := by
  refine ⟨fun s x hs => ?_, by decide, by decide, by decide, fun v => ⟨seedForRaw v, ?_⟩⟩
  · rw [← stateTransition_eq_add]
    exact ⟨exec_next hs, fun a b rest hport => step_next hs hport⟩
  · rw [← stateTransition_eq_add, outputMixer_stateTransition_seedForRaw]

/-- Settles O24: each step undone gives the inverse of M, on both sides since words are finitely many. -/
theorem mixerIsBijective : Obligations.MixerIsBijective := by
  refine ⟨fun k hk => xorShift_bijective hk, fun c hc => mul_odd_bijective hc, outputMixer_bijective,
    mixC1_mul_mixC1Inv, mixC2_mul_mixC2Inv,
    fun r => ⟨outputMixer_outputMixerInv r, outputMixerInv_outputMixer r⟩, fun s r hs => ⟨_, exec_next hs, ?_⟩⟩
  rw [State.respond_response, outputMixer_stateTransition_seedForRaw]

/-! The period (R94) -/

/-- T is the addition of an odd constant, so its iterates on one word agree only modulo 2^64. -/
theorem stateTransition_iterate_eq_iff (x : Word) (i j : Nat) :
    stateTransition^[i] x = stateTransition^[j] x ↔ i % 2 ^ 64 = j % 2 ^ 64 := by
  rw [stateTransition_iterate, stateTransition_iterate, add_right_inj, (mul_odd_injective gamma_odd).eq_iff,
    BitVec.toNat_eq, BitVec.toNat_ofNat, BitVec.toNat_ofNat]

/-- The values along an orbit: the first, and those along the orbit from the next point. -/
theorem map_iterate_range_succ {α β : Type} (g : α → β) (f : α → α) (x : α) (n : Nat) :
    ((List.range (n + 1)).map fun k => g (f^[k + 1] x)) =
      g (f x) :: (List.range n).map fun k => g (f^[k + 1] (f x)) := by
  rw [List.range_succ_eq_map, List.map_cons, List.map_map]
  rfl

theorem responses_replicate_next {s : State} {x : Word} (hs : s.STATE = some x) (a b : Word) (n : Nat) :
    responses (List.replicate n ⟨0x03, a, b⟩) s =
      (List.range n).map fun k => ⟨.ok, outputMixer (stateTransition^[k + 1] x)⟩ := by
  induction n generalizing s x with
  | zero => rfl
  | succ n ih =>
    rw [List.replicate_succ, responses_next_cons hs, ih (State.writeSTATE_STATE s _)]
    exact (map_iterate_range_succ (fun y => Response.mk .ok (outputMixer y)) stateTransition x n).symm

/-- Settles O25: iterates of T agree exactly modulo 2^64, and M, being injective, keeps them apart. -/
theorem periodIsTwoToThe64 : Obligations.PeriodIsTwoToThe64 := by
  refine ⟨fun x i j hi hj h => ?_, fun x k => ?_, fun x p => ?_,
    fun s x a b n hs => responses_replicate_next hs a b n⟩
  · rw [stateTransition_iterate_eq_iff] at h
    omega
  · have hreturn := stateTransition_iterate_eq_iff x k 0
    rw [Function.iterate_zero_apply] at hreturn
    rw [hreturn]
    omega
  · simp only [outputMixer_injective.eq_iff, stateTransition_iterate_eq_iff]
    refine ⟨fun h => ?_, fun hp k => ?_⟩
    · have hzero := h 0
      omega
    · omega

/-! Determinism and the separation of streams (R96) -/

theorem responses_next {s : State} {x : Word} (hs : s.STATE = some x) (a b : Word) :
    responses [⟨0x03, a, b⟩] s = [⟨.ok, outputMixer (stateTransition x)⟩] := responses_next_cons hs a b []

/-- Commands that do not seed step every STATE equally often, and T is injective. -/
theorem foldl_stateAfter_ne {cs : List Command} (h : ∀ c ∈ cs, commandSeed c = none) {x y : Word} (hxy : x ≠ y) :
    cs.foldl stateAfter x ≠ cs.foldl stateAfter y := by
  rw [foldl_stateAfter_of_unseeded h, foldl_stateAfter_of_unseeded h]
  exact (stateTransition_injective.iterate _).ne hxy

/-- Settles O26: responses depend on STATE alone; distinct STATEs stay distinct, and T and M keep them so in NEXT. -/
theorem streamsAreDeterministicAndSeparate : Obligations.StreamsAreDeterministicAndSeparate := by
  refine ⟨fun s t cs hst => responses_of_STATE_eq hst cs, fun s t x y a b cs hs ht hxy hcs => ?_⟩
  obtain ⟨s', hs', -, hx'⟩ := session_stateAfter hs cs
  obtain ⟨t', ht', -, hy'⟩ := session_stateAfter ht cs
  have hne := foldl_stateAfter_ne hcs hxy
  exact ⟨s', t', _, _, _, _, hs', ht', hx', hy', hne, responses_next hx' a b, responses_next hy' a b,
    (outputMixer_injective.comp stateTransition_injective).ne hne⟩

end Sys2Proof.Machine

/-! PROOFS. The uniform double converter (spec/42_uniform_double.md): the fields and the value of its pattern (R110,
R111), NEXTDOUBLE (R112), and the bounds of its results and how often each is reached (R113). -/

namespace Sys2Proof.Machine

/-! The fields of a binary64 pattern as numbers (R111) -/

theorem binary64Sign_eq_false_iff (w : Word) : binary64Sign w = false ↔ w.toNat < 2 ^ 63 := by
  have := w.isLt
  rw [binary64Sign, BitVec.getLsbD, Nat.testBit_eq_decide_div_mod_eq, decide_eq_false_iff_not]
  omega

theorem binary64Exponent_eq (w : Word) : binary64Exponent w = w.toNat / 2 ^ 52 % 2 ^ 11 := by
  rw [binary64Exponent, BitVec.extractLsb'_toNat, Nat.shiftRight_eq_div_pow]

theorem binary64Fraction_eq (w : Word) : binary64Fraction w = w.toNat % 2 ^ 52 := by
  rw [binary64Fraction, BitVec.extractLsb'_toNat, Nat.shiftRight_zero]

/-! The pattern of a number `m` with top set bit `e` (R111) -/

/-- The top set bit of a number of 53 bits. -/
theorem exists_topBit {m : Nat} (hm : m < 2 ^ 53) (hpos : m ≠ 0) : ∃ e ≤ 52, 2 ^ e ≤ m ∧ m < 2 ^ (e + 1) :=
  ⟨m.log2, Nat.le_of_lt_succ ((Nat.log2_lt hpos).mpr hm), (Nat.log2_eq_iff hpos).mp rfl⟩

section
variable {m e : Nat} (he : e ≤ 52) (hlow : 2 ^ e ≤ m) (hhigh : m < 2 ^ (e + 1))
include he hlow hhigh

/-- The bits below the leading one fit the fraction field. -/
theorem fraction_lt : (m - 2 ^ e) * 2 ^ (52 - e) < 2 ^ 52 := by
  have hbelow : m - 2 ^ e < 2 ^ e := by
    rw [pow_succ] at hhigh
    omega
  calc (m - 2 ^ e) * 2 ^ (52 - e) < 2 ^ e * 2 ^ (52 - e) := Nat.mul_lt_mul_of_pos_right hbelow (by positivity)
    _ = 2 ^ 52 := by rw [← pow_add, Nat.add_sub_cancel' he]

/-- The two fields do not overlap, and the exponent leaves the sign bit clear. -/
theorem toBinary64_toNat : (toBinary64 m).toNat = (e + 970) * 2 ^ 52 + (m - 2 ^ e) * 2 ^ (52 - e) := by
  have hfraction := fraction_lt he hlow hhigh
  have hpos : m ≠ 0 := (Nat.two_pow_pos e |>.trans_le hlow).ne'
  have hlog : m.log2 = e := (Nat.log2_eq_iff hpos).mpr ⟨hlow, hhigh⟩
  simp only [toBinary64, if_neg hpos, hlog]
  rw [Nat.shiftLeft_eq (m - 2 ^ e), ← Nat.shiftLeft_add_eq_or_of_lt hfraction, Nat.shiftLeft_eq, BitVec.toNat_ofNat]
  omega

theorem binary64Exponent_toBinary64 : binary64Exponent (toBinary64 m) = e + 970 := by
  have hfraction := fraction_lt he hlow hhigh
  rw [binary64Exponent_eq, toBinary64_toNat he hlow hhigh]
  omega

theorem binary64Fraction_toBinary64 : binary64Fraction (toBinary64 m) = (m - 2 ^ e) * 2 ^ (52 - e) := by
  have hfraction := fraction_lt he hlow hhigh
  rw [binary64Fraction_eq, toBinary64_toNat he hlow hhigh]
  omega

/-- With the implicit leading one, the significand is `m` moved up to bit 52. -/
theorem significand_toBinary64 : 2 ^ 52 + binary64Fraction (toBinary64 m) = m * 2 ^ (52 - e) := by
  rw [binary64Fraction_toBinary64 he hlow hhigh]
  calc 2 ^ 52 + (m - 2 ^ e) * 2 ^ (52 - e)
      = (2 ^ e + (m - 2 ^ e)) * 2 ^ (52 - e) := by rw [Nat.add_mul, ← pow_add, Nat.add_sub_cancel' he]
    _ = m * 2 ^ (52 - e) := by rw [Nat.add_sub_cancel' hlow]

theorem binary64Magnitude_toBinary64 : binary64Magnitude (toBinary64 m) = (m : ℚ) / 2 ^ 53 := by
  have hsignificand : (2 ^ 52 + binary64Fraction (toBinary64 m) : ℚ) = m * 2 ^ (52 - e) := by
    exact_mod_cast significand_toBinary64 he hlow hhigh
  have hexponent : 52 - e + (e + 970) = 1022 := by omega
  rw [binary64Magnitude, binary64Exponent_toBinary64 he hlow hhigh, if_neg (by omega), hsignificand]
  calc (m : ℚ) * 2 ^ (52 - e) * 2 ^ (e + 970) / 2 ^ 1075
      = (m : ℚ) * 2 ^ 1022 / (2 ^ 53 * 2 ^ 1022) := by rw [mul_assoc, ← pow_add, hexponent, ← pow_add]
    _ = (m : ℚ) / 2 ^ 53 := mul_div_mul_right _ _ (by positivity)

end

/-! The pattern of every number of 53 bits -/

theorem toBinary64_zero : toBinary64 0 = 0 := rfl

/-- Sign 0 and exponent at most 1022: the pattern is below that of 1.0. -/
theorem toBinary64_toNat_lt {m : Nat} (hm : m < 2 ^ 53) : (toBinary64 m).toNat < 1023 * 2 ^ 52 := by
  by_cases hpos : m = 0
  · subst hpos
    decide
  · obtain ⟨e, he, hlow, hhigh⟩ := exists_topBit hm hpos
    have hfraction := fraction_lt he hlow hhigh
    rw [toBinary64_toNat he hlow hhigh]
    omega

theorem binary64Sign_toBinary64 {m : Nat} (hm : m < 2 ^ 53) : binary64Sign (toBinary64 m) = false :=
  (binary64Sign_eq_false_iff _).mpr ((toBinary64_toNat_lt hm).trans (by norm_num))

theorem binary64Exponent_toBinary64_le {m : Nat} (hm : m < 2 ^ 53) : binary64Exponent (toBinary64 m) ≤ 1022 := by
  have := toBinary64_toNat_lt hm
  rw [binary64Exponent_eq]
  omega

/-- Only +0.0 has the exponent field 0, so no pattern is subnormal. -/
theorem eq_zero_of_binary64Exponent_toBinary64 {m : Nat} (hm : m < 2 ^ 53)
    (h : binary64Exponent (toBinary64 m) = 0) : m = 0 := by
  by_contra hpos
  obtain ⟨e, he, hlow, hhigh⟩ := exists_topBit hm hpos
  rw [binary64Exponent_toBinary64 he hlow hhigh] at h
  omega

/-- R110: the pattern stands for exactly `m * 2^-53`. -/
theorem binary64Value_toBinary64 {m : Nat} (hm : m < 2 ^ 53) :
    binary64Value (toBinary64 m) = some ((m : ℚ) / 2 ^ 53) := by
  have hfinite : binary64Exponent (toBinary64 m) ≠ 2047 := by
    have := binary64Exponent_toBinary64_le hm
    omega
  rw [binary64Value, if_neg hfinite, binary64Sign_toBinary64 hm, if_neg Bool.false_ne_true]
  by_cases hpos : m = 0
  · subst hpos
    simp [toBinary64_zero, binary64Magnitude, binary64Exponent_eq, binary64Fraction_eq]
  · obtain ⟨e, he, hlow, hhigh⟩ := exists_topBit hm hpos
    rw [binary64Magnitude_toBinary64 he hlow hhigh]

theorem topBits_lt (r : Word) : topBits r < 2 ^ 53 := by
  have := r.isLt
  rw [topBits_eq_div]
  omega

/-- Settles O39: the two fields side by side, and the significand `m * 2^(52-e)` scaled by the exponent. -/
theorem doubleEncodingIsExact : Obligations.DoubleEncodingIsExact := by
  refine ⟨toBinary64_zero, fun m hm => binary64Value_toBinary64 hm, fun m e _ hm hlow hhigh => ?_, fun r => ?_⟩
  · have he : e ≤ 52 := Nat.le_of_lt_succ ((Nat.pow_lt_pow_iff_right (by decide)).mp (hlow.trans_lt hm))
    exact ⟨binary64Sign_toBinary64 hm, binary64Exponent_toBinary64 he hlow hhigh, by omega, by omega,
      binary64Fraction_toBinary64 he hlow hhigh⟩
  · refine ⟨topBits_eq_div r, Nat.le_sub_one_of_lt (topBits_lt r), ?_⟩
    rw [← topBits_eq_div]
    exact binary64Value_toBinary64 (topBits_lt r)

/-! NEXTDOUBLE (R112) -/

theorem exec_nextdouble {s : State} {x : Word} (hs : s.STATE = some x) :
    exec .nextdouble s = .next ((s.writeSTATE (stateTransition x)).respond .ok
      (toBinary64 (topBits (outputMixer (stateTransition x))))) :=
  drawResult_of_some hs fun r => toBinary64 (topBits r)

theorem issue_nextdouble {s : State} {x : Word} (hs : s.STATE = some x) (a b : Word) :
    issue ⟨0x04, a, b⟩ s = .next ((s.writeSTATE (stateTransition x)).respond .ok
      (toBinary64 (topBits (outputMixer (stateTransition x))))) :=
  (runCommand_of_ok (decode_nextdouble a b) s).trans (exec_nextdouble hs)

theorem step_nextdouble {s : State} {x a b : Word} {rest : List PortEvent} (hs : s.STATE = some x)
    (hport : s.port = .command ⟨0x04, a, b⟩ :: rest) :
    step s = .next { STATE := some (stateTransition x), port := rest,
                     response := some ⟨.ok, toBinary64 (topBits (outputMixer (stateTransition x)))⟩ } :=
  (step_of_command hport).trans (issue_nextdouble (s := s.withPort rest) hs a b)

theorem responses_nextdouble {s : State} {x : Word} (hs : s.STATE = some x) (a b : Word) :
    responses [⟨0x04, a, b⟩] s = [⟨.ok, toBinary64 (topBits (outputMixer (stateTransition x)))⟩] :=
  responses_singleton_of_next (issue_nextdouble hs a b)

theorem toBinary64_one : toBinary64 1 = 0x3CA0000000000000 := by decide
theorem toBinary64_max : toBinary64 (2 ^ 53 - 1) = 0x3FEFFFFFFFFFFFFF := by decide

/-- Settles O18: NEXTDOUBLE is one draw with the pattern of its top 53 bits as its result; each corner case is a value
of those bits or a bound on every pattern. -/
theorem nextDoubleConvertsTheRawDraw : Obligations.NextDoubleConvertsTheRawDraw := by
  refine ⟨fun s x r hs hr => ?_, fun r hr => ?_, fun r hr hr' => ?_, fun r hr => ?_, by decide,
    fun r => ?_, by decide⟩
  · rw [hr, ← stateTransition_eq_add, ← topBits_eq_div]
    exact ⟨exec_nextdouble hs, fun a b rest hport => step_nextdouble hs hport⟩
  · rw [Nat.div_eq_of_lt hr]
    exact toBinary64_zero
  · have htop : r.toNat / 2 ^ 11 = 1 := by omega
    rw [htop, toBinary64_one]
  · have := r.isLt
    have htop : r.toNat / 2 ^ 11 = 2 ^ 53 - 1 := by omega
    rw [htop, toBinary64_max]
  · rw [← topBits_eq_div]
    have hm := topBits_lt r
    refine ⟨binary64Sign_toBinary64 hm, binary64Exponent_toBinary64_le hm, fun h => ?_,
      Nat.le_of_lt_succ (toBinary64_toNat_lt hm)⟩
    rw [eq_zero_of_binary64Exponent_toBinary64 hm h, toBinary64_zero]

/-! The results of NEXTDOUBLE (R113) -/

/-- The values of distinct numbers are distinct. -/
theorem binary64Value_toBinary64_topBits_eq_iff (r : Word) (m : Nat) :
    binary64Value (toBinary64 (topBits r)) = some ((m : ℚ) / 2 ^ 53) ↔ topBits r = m := by
  rw [binary64Value_toBinary64 (topBits_lt r), Option.some_inj, div_left_inj' (by positivity), Nat.cast_inj]

/-- The words whose numbers lie in an interval are as many as those numbers. -/
theorem ncard_toNat_mem_Ico (a : Nat) {b : Nat} (hb : b ≤ 2 ^ 64) :
    Set.ncard { r : Word | r.toNat ∈ Set.Ico a b } = b - a := by
  have himage : BitVec.toNat '' { r : Word | r.toNat ∈ Set.Ico a b } = Set.Ico a b := by
    refine Set.image_preimage_eq_of_subset fun v hv => ?_
    exact ⟨BitVec.ofNatLT v (hv.2.trans_le hb), BitVec.toNat_ofNatLT v _⟩
  rw [← Set.ncard_image_of_injective _ BitVec.toNat_injective, himage, ← Finset.coe_Ico, Set.ncard_coe_finset,
    Nat.card_Ico]

/-- The low 11 bits of the raw word are free. -/
theorem ncard_topBits_eq {m : Nat} (hm : m < 2 ^ 53) : Set.ncard { r : Word | topBits r = m } = 2 ^ 11 := by
  have hinterval (r : Word) : topBits r = m ↔ r.toNat ∈ Set.Ico (m * 2 ^ 11) (m * 2 ^ 11 + 2 ^ 11) := by
    rw [topBits_eq_div, Set.mem_Ico]
    omega
  simp only [hinterval]
  rw [ncard_toNat_mem_Ico _ (by omega), Nat.add_sub_cancel_left]

theorem exists_topBits_eq {m : Nat} (hm : m < 2 ^ 53) : ∃ r : Word, topBits r = m := by
  refine ⟨BitVec.ofNat 64 (m * 2 ^ 11), ?_⟩
  rw [topBits_eq_div, BitVec.toNat_ofNat]
  omega

theorem div_two_pow_53_le {m : Nat} (hm : m < 2 ^ 53) : (m : ℚ) / 2 ^ 53 ≤ 1 - 1 / 2 ^ 53 := by
  have hsucc : (m : ℚ) + 1 ≤ 2 ^ 53 := by exact_mod_cast hm
  rw [le_sub_iff_add_le, ← add_div]
  exact div_le_one_of_le₀ hsucc (by positivity)

/-- Settles O40: a result is `m * 2^-53` for the top 53 bits `m` of the raw word, and `seedForRaw` reaches every raw
word. -/
theorem doubleStaysBelowOne : Obligations.DoubleStaysBelowOne := by
  refine ⟨fun s x hs => ?_, fun m hm => ?_, fun m hm => ?_⟩
  · have hm := topBits_lt (outputMixer (stateTransition x))
    have hle := div_two_pow_53_le hm
    exact ⟨_, _, _, exec_nextdouble hs, rfl, binary64Value_toBinary64 hm, by positivity, hle,
      hle.trans_lt (by norm_num)⟩
  · simp only [binary64Value_toBinary64_topBits_eq_iff]
    exact ncard_topBits_eq hm
  · obtain ⟨r, hr⟩ := exists_topBits_eq hm
    refine ⟨seedForRaw r, _, responses_nextdouble (State.writeSTATE_STATE _ _) 0 0, ?_⟩
    rw [outputMixer_stateTransition_seedForRaw]
    exact (binary64Value_toBinary64_topBits_eq_iff r m).mpr hr

end Sys2Proof.Machine

/-! PROOFS. The bounded integer sampler (spec/43_bounded_int.md): the reduction and its bias (R120, R123), RANGE (R121,
R122), the span of an interval and RANDINT (R124 to R127), and TOSS (R128, R129). -/

namespace Sys2Proof.Machine

/-! The reduction as a word (R120) -/

/-- A residue of a bound of at most 2^64 fits a word. -/
theorem toNat_ofNat_reduce (r : Word) {n : Nat} (hpos : 0 < n) (hn : n ≤ 2 ^ 64) :
    (BitVec.ofNat 64 (reduce r n)).toNat = reduce r n := by
  rw [BitVec.toNat_ofNat]
  exact Nat.mod_eq_of_lt ((reduce_lt r hpos).trans_le hn)

theorem ofNat_reduce_eq_iff (r v : Word) {n : Nat} (hpos : 0 < n) (hn : n ≤ 2 ^ 64) :
    BitVec.ofNat 64 (reduce r n) = v ↔ reduce r n = v.toNat := by
  rw [BitVec.toNat_eq, toNat_ofNat_reduce r hpos hn]

/-- The residue modulo a power of two is the low bits. -/
theorem ofNat_reduce_two_pow (r : Word) {k : Nat} (hk : k < 64) :
    BitVec.ofNat 64 (reduce r (2 ^ k)) = (r.extractLsb' 0 k).setWidth 64 := by
  rw [ofNat_reduce_eq_iff r _ (by positivity) (Nat.pow_le_pow_right (by decide) hk.le),
    BitVec.toNat_setWidth_of_le hk.le, BitVec.extractLsb'_toNat, Nat.shiftRight_zero, reduce, unat]

/-- The residue modulo the largest word: only that word itself is not smaller. -/
theorem ofNat_reduce_allOnes (r : Word) : BitVec.ofNat 64 (reduce r (2 ^ 64 - 1)) =
    if r = 0xFFFFFFFFFFFFFFFF then 0 else r := by
  rw [ofNat_reduce_eq_iff r _ (by norm_num) (by norm_num), reduce, unat]
  split
  next h =>
    subst h
    decide
  next h =>
    have hne : r.toNat ≠ 2 ^ 64 - 1 := fun hr => h (BitVec.eq_of_toNat_eq hr)
    have := r.isLt
    exact Nat.mod_eq_of_lt (by omega)

theorem reduce_two_pow_64 (r : Word) : reduce r (2 ^ 64) = r.toNat := Nat.mod_eq_of_lt r.isLt

/-! How many raw values, and how many values of STATE, give a residue (R123) -/

theorem ncard_toNat (p : Nat → Prop) [DecidablePred p] : Set.ncard { r : Word | p r.toNat } = Nat.count p (2 ^ 64) := by
  have himage : BitVec.toNat '' { r : Word | p r.toNat } = ((Finset.range (2 ^ 64)).filter p : Set Nat) := by
    ext v
    rw [Finset.mem_coe, Finset.mem_filter, Finset.mem_range]
    constructor
    · rintro ⟨r, hr, rfl⟩
      exact ⟨r.isLt, hr⟩
    · rintro ⟨hv, hp⟩
      exact ⟨BitVec.ofNatLT v hv, hp, BitVec.toNat_ofNatLT v hv⟩
  rw [← Set.ncard_image_of_injective _ BitVec.toNat_injective, himage, Set.ncard_coe_finset,
    Nat.count_eq_card_filter_range]

/-- Counting a residue class below 2^64. -/
theorem ncard_reduce_eq {n v : Nat} (hv : v < n) :
    Set.ncard { r : Word | reduce r n = v } = 2 ^ 64 / n + if v < 2 ^ 64 % n then 1 else 0 := by
  have hclass (r : Word) : reduce r n = v ↔ r.toNat ≡ v [MOD n] := by
    rw [reduce, unat, Nat.ModEq, Nat.mod_eq_of_lt hv]
  have hcount := Nat.count_modEq_card (2 ^ 64) (Nat.zero_lt_of_lt hv) v
  rw [Nat.mod_eq_of_lt hv] at hcount
  simp only [hclass]
  rw [ncard_toNat (· ≡ v [MOD n]), hcount]

/-- Every raw value comes from exactly one STATE, since T and M are bijections. -/
theorem ncard_rawDraw (p : Word → Prop) :
    Set.ncard { x : Word | p (outputMixer (stateTransition x)) } = Set.ncard { r : Word | p r } :=
  Set.ncard_preimage_of_injective_subset_range (outputMixer_injective.comp stateTransition_injective)
    fun r _ => ⟨seedForRaw r, outputMixer_stateTransition_seedForRaw r⟩

/-- The residues 0 and `n - 1` occur equally often only where no remainder is left over. -/
theorem ncard_reduce_eq_all_iff {n : Nat} (hn : 1 ≤ n) :
    (∀ v w : Nat, v < n → w < n → Set.ncard { r : Word | reduce r n = v } = Set.ncard { r : Word | reduce r n = w }) ↔
      2 ^ 64 % n = 0 := by
  constructor
  · intro h
    have hends := h 0 (n - 1) (by omega) (by omega)
    rw [ncard_reduce_eq (by omega), ncard_reduce_eq (by omega)] at hends
    have hlast : ¬n - 1 < 2 ^ 64 % n := Nat.not_lt.mpr (Nat.le_sub_one_of_lt (Nat.mod_lt _ hn))
    rw [if_neg hlast] at hends
    by_contra hrest
    rw [if_pos (Nat.pos_of_ne_zero hrest)] at hends
    exact Nat.succ_ne_self _ hends
  · intro h v w hv hw
    rw [ncard_reduce_eq hv, ncard_reduce_eq hw, h, if_neg (Nat.not_lt_zero v), if_neg (Nat.not_lt_zero w)]

/-- The bounds that divide 2^64 are the powers of two up to it. -/
theorem two_pow_64_mod_eq_zero_iff {n : Nat} (hn : n ≤ 2 ^ 64) : 2 ^ 64 % n = 0 ↔ ∃ k : Nat, n = 2 ^ k := by
  rw [← Nat.dvd_iff_mod_eq_zero, Nat.dvd_prime_pow Nat.prime_two]
  constructor
  · rintro ⟨k, -, hk⟩
    exact ⟨k, hk⟩
  · rintro ⟨k, rfl⟩
    exact ⟨k, (Nat.pow_le_pow_iff_right (by decide)).mp hn, rfl⟩

/-! RANGE (R121) -/

theorem exec_range_zero {s : State} {x : Word} (hs : s.STATE = some x) :
    exec (.range 0) s = .next (s.respond .invalidRange 0) := raiseError_of_some hs .invalidRange

theorem exec_range {s : State} {x n : Word} (hs : s.STATE = some x) (hn : n ≠ 0) :
    exec (.range n) s = .next ((s.writeSTATE (stateTransition x)).respond .ok
      (BitVec.ofNat 64 (reduce (outputMixer (stateTransition x)) n.toNat))) := by
  rw [exec, execRange, rangeError_of_ne hn, checked_none, drawResult_of_some hs, unat]

theorem responses_range {s : State} {x n : Word} (hs : s.STATE = some x) (hn : n ≠ 0) (b : Word) :
    responses [⟨0x05, n, b⟩] s =
      [⟨.ok, BitVec.ofNat 64 (reduce (outputMixer (stateTransition x)) n.toNat)⟩] :=
  responses_singleton_of_next ((runCommand_of_ok (decode_range n b) s).trans (exec_range hs hn))

/-- Settles O19: RANGE is its check and then one draw reduced modulo n; each corner case is a residue. -/
theorem rangeReducesTheRawDraw : Obligations.RangeReducesTheRawDraw := by
  refine ⟨fun s x hs => exec_range_zero hs, fun s x n r hs hn hr => ?_,
    fun s x n b rest _ hport => step_of_decode hport (decode_range n b), fun r n hn => ?_, fun r n k hk hn => ?_,
    fun r n hn => ?_, fun r n hlt => ?_, rfl⟩
  · rw [hr, ← stateTransition_eq_add]
    exact exec_range hs hn
  · rw [hn, Nat.mod_one, BitVec.ofNat_eq_ofNat]
  · rw [hn]
    exact ofNat_reduce_two_pow r hk
  · subst hn
    exact ofNat_reduce_allOnes r
  · rw [Nat.mod_eq_of_lt hlt, BitVec.ofNat_toNat, BitVec.setWidth_eq]

/-- Settles O33: the word RANGE answers is the residue, which is below the bound. -/
theorem rangeStaysBelowItsBound : Obligations.RangeStaysBelowItsBound := by
  refine ⟨fun s x n hs hn => ⟨_, _, exec_range hs hn, rfl, ?_⟩,
    fun s x hs => ⟨_, exec_range hs (by decide), ?_⟩⟩
  · have hpos := BitVec.toNat_pos_of_ne_zero hn
    rw [toNat_ofNat_reduce _ hpos n.isLt.le]
    exact reduce_lt _ hpos
  · have hone : (1 : Word).toNat = 1 := by decide
    rw [State.respond_response, hone, reduce, Nat.mod_one, BitVec.ofNat_eq_ofNat]

/-- RANGE n answers a word below n exactly where the raw value reduces to it. -/
theorem responses_range_eq_iff {n v : Word} (hv : v.toNat < n.toNat) (x b : Word) :
    responses [⟨0x05, n, b⟩] (State.reset.writeSTATE x) = [⟨.ok, v⟩] ↔
      reduce (outputMixer (stateTransition x)) n.toNat = v.toNat := by
  have hn : n ≠ 0 := by
    rintro rfl
    exact Nat.not_lt_zero _ hv
  rw [responses_range (State.writeSTATE_STATE _ x) hn, List.singleton_inj, Response.mk.injEq,
    ofNat_reduce_eq_iff _ _ (BitVec.toNat_pos_of_ne_zero hn) n.isLt.le]
  exact and_iff_right rfl

/-- Settles O37: the residue classes below 2^64, counted; over STATE the same, since each raw value comes once. -/
theorem reductionBiasIsExact : Obligations.ReductionBiasIsExact := by
  refine ⟨fun n v _ _ hv => ncard_reduce_eq hv, fun n v b hv => ?_, fun n hn hn' => ?_⟩
  · simp only [responses_range_eq_iff hv]
    rw [ncard_rawDraw fun r => reduce r n.toNat = v.toNat, ncard_reduce_eq hv]
  · rw [ncard_reduce_eq_all_iff hn, two_pow_64_mod_eq_zero_iff hn']

/-! TOSS (R128) -/

theorem exec_toss {s : State} {x : Word} (hs : s.STATE = some x) :
    exec .toss s = .next ((s.writeSTATE (stateTransition x)).respond .ok
      (BitVec.ofNat 64 (reduce (outputMixer (stateTransition x)) 2))) :=
  drawResult_of_some hs fun r => BitVec.ofNat 64 (reduce r 2)

theorem exec_toss_eq_exec_range_two (s : State) : exec .toss s = exec (.range 2) s := by
  have hcheck : rangeError 2 = none := rangeError_of_ne (by decide)
  have hbound : unat 2 = 2 := by decide
  change execToss s = execRange 2 s
  rw [execToss, execRange, hcheck, checked_none, hbound]

theorem responses_toss {s : State} {x : Word} (hs : s.STATE = some x) (a b : Word) :
    responses [⟨0x07, a, b⟩] s = [⟨.ok, BitVec.ofNat 64 (reduce (outputMixer (stateTransition x)) 2)⟩] :=
  responses_singleton_of_next ((runCommand_of_ok (decode_toss a b) s).trans (exec_toss hs))

/-- Settles O21: TOSS is one draw reduced modulo 2, which is bit 0 and what RANGE 2 does. -/
theorem tossReturnsTheLowBit : Obligations.TossReturnsTheLowBit := by
  refine ⟨fun s x r hs hr => ?_, exec_toss_eq_exec_range_two, by decide⟩
  rw [hr, ← stateTransition_eq_add]
  refine ⟨?_, fun a b rest hport => ?_⟩
  · rw [← ofNat_reduce_two_pow _ (by decide)]
    exact exec_toss hs
  · rw [step_of_decode hport (decode_toss a b)]
    exact exec_toss (s := s.withPort rest) hs

/-- Either bit is the answer for half of the values of STATE. -/
theorem ncard_responses_toss {v : Word} (hv : v.toNat < 2) (a b : Word) :
    Set.ncard { x : Word | responses [⟨0x07, a, b⟩] (State.reset.writeSTATE x) = [⟨.ok, v⟩] } = 2 ^ 63 := by
  have hiff (x : Word) : responses [⟨0x07, a, b⟩] (State.reset.writeSTATE x) = [⟨.ok, v⟩] ↔
      reduce (outputMixer (stateTransition x)) 2 = v.toNat := by
    rw [responses_toss (State.writeSTATE_STATE _ x), List.singleton_inj, Response.mk.injEq,
      ofNat_reduce_eq_iff _ _ (by decide) (by decide)]
    exact and_iff_right rfl
  have heven : 2 ^ 64 % 2 = 0 := by norm_num
  simp only [hiff]
  rw [ncard_rawDraw fun r => reduce r 2 = v.toNat, ncard_reduce_eq hv, heven, if_neg (Nat.not_lt_zero _)]
  norm_num

/-- Settles O38: the bias of the reduction for the bound 2, which divides 2^64. -/
theorem tossIsBalanced : Obligations.TossIsBalanced := fun a b =>
  ⟨ncard_responses_toss (by decide) a b, ncard_responses_toss (by decide) a b⟩

/-! The span of an interval (R124)

The unsigned and the signed reading enter by one property only, so each fact about intervals is proved once. -/

/-- The wrapping difference of two words is the difference of their readings modulo 2^64, and no two readings are 2^64
apart. -/
def WrapsInto (reading : Word → Int) : Prop :=
  ∀ v w : Word, ((v - w).toNat : Int) = (reading v - reading w) % 2 ^ 64 ∧ reading v - reading w < 2 ^ 64

theorem wrapsInto_toNat : WrapsInto fun v => v.toNat := by
  intro v w
  have := v.isLt
  have := w.isLt
  dsimp only
  rw [BitVec.toNat_sub]
  omega

theorem wrapsInto_toInt : WrapsInto BitVec.toInt := by
  intro v w
  have := v.isLt
  have := w.isLt
  rw [BitVec.toNat_sub, BitVec.toInt_eq_toNat_cond v, BitVec.toInt_eq_toNat_cond w]
  split <;> split <;> omega

theorem wrapsInto_sint : WrapsInto sint := by
  rw [show sint = BitVec.toInt from funext sint_eq_toInt]
  exact wrapsInto_toInt

section
variable {reading : Word → Int} (hreading : WrapsInto reading) {low high : Word} (hle : reading low ≤ reading high)
include hreading hle

theorem span_eq_sub_add_one : (span low high : Int) = reading high - reading low + 1 := by
  obtain ⟨hsub, hlt⟩ := hreading high low
  rw [span, unat, Nat.cast_add, hsub, Int.emod_eq_of_lt (by omega) hlt, Nat.cast_one]

/-- The words of an interval are those less than its span above `low`. -/
theorem sub_low_lt_span_iff (v : Word) :
    (v - low).toNat < span low high ↔ reading low ≤ reading v ∧ reading v ≤ reading high := by
  have hspan := span_eq_sub_add_one hreading hle
  obtain ⟨hsub, hlt⟩ := hreading v low
  obtain ⟨-, hlt'⟩ := hreading high v
  omega

theorem ncard_interval : Set.ncard { v : Word | reading low ≤ reading v ∧ reading v ≤ reading high } =
    span low high := by
  have hshift : Function.Bijective fun v : Word => v - low := (Equiv.subRight low).bijective
  have hmem (v : Word) : reading low ≤ reading v ∧ reading v ≤ reading high ↔
      (v - low).toNat ∈ Set.Ico 0 (span low high) := by
    rw [← sub_low_lt_span_iff hreading hle, Set.mem_Ico]
    exact (and_iff_right (Nat.zero_le _)).symm
  simp only [hmem]
  calc Set.ncard { v : Word | (v - low).toNat ∈ Set.Ico 0 (span low high) }
      = Set.ncard { d : Word | d.toNat ∈ Set.Ico 0 (span low high) } :=
        Set.ncard_preimage_of_injective_subset_range (s := { d : Word | d.toNat ∈ Set.Ico 0 (span low high) })
          hshift.injective fun d _ => hshift.surjective d
    _ = span low high := ncard_toNat_mem_Ico 0 (span_le low high)

end

/-- Settles O35: the difference of the readings, and the words less than the span above `low`. -/
theorem spanCountsTheInterval : Obligations.SpanCountsTheInterval := by
  refine ⟨fun low high => ⟨span_pos low high, span_le low high⟩, fun low high hle => ?_,
    fun low high hle => ⟨span_eq_sub_add_one wrapsInto_sint hle, ncard_interval wrapsInto_sint hle⟩⟩
  have hle' : (low.toNat : Int) ≤ high.toNat := Int.ofNat_le.mpr hle
  have hcount := ncard_interval wrapsInto_toNat hle'
  simp only [Nat.cast_le] at hcount
  exact ⟨span_eq_sub_add_one wrapsInto_toNat hle', hcount⟩

/-! The result of a RANDINT (R125 to R127) -/

/-- The result is a residue of the span above `low`, in whichever reading the interval is ordered. -/
theorem intoInterval_mem {reading : Word → Int} (hreading : WrapsInto reading) {low high : Word}
    (hle : reading low ≤ reading high) (r : Word) :
    reading low ≤ reading (intoInterval low high r) ∧ reading (intoInterval low high r) ≤ reading high := by
  rw [← sub_low_lt_span_iff hreading hle, intoInterval, add_sub_cancel_left,
    toNat_ofNat_reduce r (span_pos low high) (span_le low high)]
  exact reduce_lt r (span_pos low high)

theorem intoInterval_self (k r : Word) : intoInterval k k r = k := by
  have hspan : span k k = 1 := by
    rw [span, sub_self]
    rfl
  rw [intoInterval, hspan, reduce, Nat.mod_one, BitVec.add_zero]

theorem intoInterval_of_full_span {low high : Word} (hfull : (high - low).toNat = 2 ^ 64 - 1) (r : Word) :
    intoInterval low high r = low + r := by
  have hspan : span low high = 2 ^ 64 := by rw [span, unat, hfull, Nat.sub_add_cancel Nat.one_le_two_pow]
  rw [intoInterval, hspan, reduce_two_pow_64, BitVec.ofNat_toNat, BitVec.setWidth_eq]

/-- R125's interval [-1, 0] of the signed reading. -/
theorem intoInterval_minus_one_zero (r : Word) :
    intoInterval 0xFFFFFFFFFFFFFFFF 0 r = 0xFFFFFFFFFFFFFFFF ∨ intoInterval 0xFFFFFFFFFFFFFFFF 0 r = 0 := by
  have hspan : span 0xFFFFFFFFFFFFFFFF 0 = 2 := by decide
  rw [intoInterval, hspan, reduce, unat]
  rcases Nat.mod_two_eq_zero_or_one r.toNat with h | h
  · rw [h]
    exact .inl (by decide)
  · rw [h]
    exact .inr (by decide)

/-! RANDINT.U and RANDINT.S (R125) -/

theorem exec_randintU {s : State} {x low high : Word} (hs : s.STATE = some x) (hle : low.toNat ≤ high.toNat) :
    exec (.randintU low high) s = .next ((s.writeSTATE (stateTransition x)).respond .ok
      (intoInterval low high (outputMixer (stateTransition x)))) := by
  rw [exec, execRandintU, intervalErrorU_eq_none.mpr hle, checked_none, drawResult_of_some hs]

theorem exec_randintS {s : State} {x low high : Word} (hs : s.STATE = some x) (hle : sint low ≤ sint high) :
    exec (.randintS low high) s = .next ((s.writeSTATE (stateTransition x)).respond .ok
      (intoInterval low high (outputMixer (stateTransition x)))) := by
  rw [exec, execRandintS, intervalErrorS_eq_none.mpr hle, checked_none, drawResult_of_some hs]

theorem intervalErrorU_of_lt {low high : Word} (hlt : high.toNat < low.toNat) :
    intervalErrorU low high = some .invalidInterval := by
  rw [intervalErrorU, orderedU, unat, unat, decide_eq_false hlt.not_ge, if_neg Bool.false_ne_true]

theorem intervalErrorS_of_lt {low high : Word} (hlt : sint high < sint low) :
    intervalErrorS low high = some .invalidInterval := by
  rw [intervalErrorS, orderedS, decide_eq_false hlt.not_ge, if_neg Bool.false_ne_true]

theorem exec_randintU_of_lt {s : State} {x low high : Word} (hs : s.STATE = some x) (hlt : high.toNat < low.toNat) :
    exec (.randintU low high) s = .next (s.respond .invalidInterval 0) := by
  rw [exec, execRandintU, intervalErrorU_of_lt hlt, checked_some, raiseError_of_some hs]

theorem exec_randintS_of_lt {s : State} {x low high : Word} (hs : s.STATE = some x) (hlt : sint high < sint low) :
    exec (.randintS low high) s = .next (s.respond .invalidInterval 0) := by
  rw [exec, execRandintS, intervalErrorS_of_lt hlt, checked_some, raiseError_of_some hs]

/-- Settles O20: either command is its order check and then one draw put into the interval; the corner cases are the
spans 1, 2 and 2^64. -/
theorem randIntDrawsFromTheInterval : Obligations.RandIntDrawsFromTheInterval := by
  refine ⟨fun s x low high r hs hr => ?_, fun s x low high rest _ => ⟨fun hport => ?_, fun hport => ?_⟩,
    fun r k => intoInterval_self k r, fun r => ?_, fun r => intoInterval_of_full_span (by decide) r,
    ⟨by decide, by decide, by decide, intoInterval_minus_one_zero⟩, fun low high r n hn => ?_, rfl⟩
  · rw [hr, ← stateTransition_eq_add, ← sint_eq_toInt, ← sint_eq_toInt]
    exact ⟨exec_randintU hs, exec_randintU_of_lt hs, exec_randintS hs, exec_randintS_of_lt hs⟩
  · exact step_of_decode hport (decode_randintU low high)
  · exact step_of_decode hport (decode_randintS low high)
  · rw [intoInterval_of_full_span (by decide), zero_add]
  · rw [intoInterval, reduce, unat, hn, add_comm]

/-- Settles O34: the bounds in the reading of the command, and the span 1. -/
theorem randIntStaysInItsInterval : Obligations.RandIntStaysInItsInterval := by
  refine ⟨fun s x low high hs hle => ?_, fun s x low high hs hle => ?_, fun s x k hs => ?_⟩
  · obtain ⟨hlow, hhigh⟩ := intoInterval_mem wrapsInto_toNat (Int.ofNat_le.mpr hle) (outputMixer (stateTransition x))
    exact ⟨_, _, exec_randintU hs hle, rfl, Int.ofNat_le.mp hlow, Int.ofNat_le.mp hhigh⟩
  · obtain ⟨hlow, hhigh⟩ := intoInterval_mem wrapsInto_toInt hle (outputMixer (stateTransition x))
    rw [← sint_eq_toInt, ← sint_eq_toInt] at hle
    exact ⟨_, _, exec_randintS hs hle, rfl, hlow, hhigh⟩
  · refine ⟨⟨_, exec_randintU hs le_rfl, ?_⟩, ⟨_, exec_randintS hs le_rfl, ?_⟩⟩
    all_goals rw [State.respond_response, intoInterval_self]

/-- Settles O36: reducing modulo 2^64 changes nothing, and `seedForRaw` reaches every raw value. -/
theorem fullSpanAddsTheRawDraw : Obligations.FullSpanAddsTheRawDraw := by
  intro low high hfull
  refine ⟨fun s x hs => ?_, fun v => ⟨seedForRaw (v - low), ?_⟩⟩
  · rw [← intoInterval_of_full_span hfull]
    exact ⟨exec_randintU hs, exec_randintS hs⟩
  · rw [outputMixer_stateTransition_seedForRaw, add_sub_cancel]

end Sys2Proof.Machine

/-! PROOFS. Errors, faults and safe runs (spec/60_exceptions.md): the three outcomes of a command (R156), the error codes
(R140, R142 to R144), the protocol violations (R148), and the invariant of a safe run (R175, R177). -/

namespace Sys2Proof.Machine

/-! The cause of each error code (R142, R144) -/

theorem commandError_eq_none {c : Command} (h : commandError c = none) :
    ∃ i, decode c = .ok i ∧ operandError i = none := by
  cases hd : decode c with
  | error e => simp [commandError, hd] at h
  | ok i => exact ⟨i, rfl, by rwa [commandError_of_decode hd] at h⟩

theorem operandError_eq_invalidRange_iff (i : Instr) : operandError i = some .invalidRange ↔ i = .range 0 := by
  cases i with
  | range n => simp [operandError, rangeError]
  | randintU low high => simp [operandError, intervalErrorU]
  | randintS low high => simp [operandError, intervalErrorS]
  | _ => simp [operandError]

theorem intervalErrorU_eq_some_iff (low high : Word) :
    intervalErrorU low high = some .invalidInterval ↔ high.toNat < low.toNat := by
  refine ⟨fun h => not_le.mp fun hle => ?_, intervalErrorU_of_lt⟩
  simp [intervalErrorU_eq_none.mpr hle] at h

theorem intervalErrorS_eq_some_iff (low high : Word) :
    intervalErrorS low high = some .invalidInterval ↔ high.toInt < low.toInt := by
  rw [← sint_eq_toInt, ← sint_eq_toInt]
  refine ⟨fun h => not_le.mp fun hle => ?_, intervalErrorS_of_lt⟩
  simp [intervalErrorS_eq_none.mpr hle] at h

theorem operandError_eq_invalidInterval_iff (i : Instr) : operandError i = some .invalidInterval ↔
    (∃ low high, i = .randintU low high ∧ high.toNat < low.toNat) ∨
    ∃ low high, i = .randintS low high ∧ high.toInt < low.toInt := by
  cases i with
  | range n => simp [operandError, rangeError]
  | randintU low high => simp [operandError, intervalErrorU_eq_some_iff]
  | randintS low high => simp [operandError, intervalErrorS_eq_some_iff]
  | _ => simp [operandError]

/-- An operand check comes after a legal decode. -/
theorem operandError_ne_illegalCommand (i : Instr) : operandError i ≠ some .illegalCommand := by
  cases i with
  | range n => simp [operandError, rangeError]
  | randintU low high => simp [operandError, intervalErrorU]
  | randintS low high => simp [operandError, intervalErrorS]
  | _ => simp [operandError]

theorem commandError_eq_illegalCommand_iff (c : Command) :
    commandError c = some .illegalCommand ↔ ∃ e, decode c = .error e := by
  cases hd : decode c with
  | error e => simp [commandError, hd]
  | ok i => simp [commandError_of_decode hd, operandError_ne_illegalCommand]

/-- An error code other than ILLEGAL_COMMAND comes from the operand check of the decoded instruction. -/
theorem commandError_eq_some_iff {k : Code} (hk : k ≠ .illegalCommand) (c : Command) :
    commandError c = some k ↔ ∃ i, decode c = .ok i ∧ operandError i = some k := by
  cases hd : decode c with
  | error e => simp [commandError, hd, hk.symm]
  | ok i => simp [commandError_of_decode hd]

theorem commandError_eq_invalidRange_iff (c : Command) :
    commandError c = some .invalidRange ↔ c.cmd = 0x05 ∧ c.opa = 0 := by
  rw [commandError_eq_some_iff (by decide)]
  simp [operandError_eq_invalidRange_iff, decode_eq_ok_iff, EncodesAs, encode, Instr.readsOPA, Instr.readsOPB]

theorem commandError_eq_invalidInterval_iff (c : Command) : commandError c = some .invalidInterval ↔
    (c.cmd = 0x06 ∧ c.opb.toNat < c.opa.toNat) ∨ (c.cmd = 0x16 ∧ c.opb.toInt < c.opa.toInt) := by
  rw [commandError_eq_some_iff (by decide)]
  simp only [operandError_eq_invalidInterval_iff, decode_eq_ok_iff]
  constructor
  · rintro ⟨i, hc, ⟨low, high, rfl, hlt⟩ | ⟨low, high, rfl, hlt⟩⟩
    all_goals obtain ⟨hcmd, hopa, hopb⟩ := hc
    · exact .inl ⟨hcmd, by rwa [hopa rfl, hopb rfl]⟩
    · exact .inr ⟨hcmd, by rwa [hopa rfl, hopb rfl]⟩
  · rintro (⟨hcmd, hlt⟩ | ⟨hcmd, hlt⟩)
    · exact ⟨.randintU c.opa c.opb, ⟨hcmd, fun _ => rfl, fun _ => rfl⟩, .inl ⟨_, _, rfl, hlt⟩⟩
    · exact ⟨.randintS c.opa c.opb, ⟨hcmd, fun _ => rfl, fun _ => rfl⟩, .inr ⟨_, _, rfl, hlt⟩⟩

/-! What a command answers (R143, R156) -/

theorem commandError_of_commandSeed {c : Command} {seed : Word} (h : commandSeed c = some seed) :
    commandError c = none := by
  rcases decode_of_commandSeed h with hd | hd <;> exact commandError_of_decode hd

theorem commandError_of_successfulDraw {c : Command} (h : successfulDraw c = true) : commandError c = none := by
  refine Option.eq_none_iff_forall_ne_some.mpr fun k hk => ?_
  obtain ⟨-, hdraw, -⟩ := commandError_eq_some hk
  simp [hdraw] at h

/-- A command without an error is answered OK with the write of R23; one with an error is answered with it, RES = 0 and
STATE as it was. -/
theorem issue_answers {s : State} {x : Word} (hs : s.STATE = some x) (c : Command) :
    ∃ t r, issue c s = .next t ∧ t.port = s.port ∧ t.response = some r ∧
      ((commandError c = none ∧ r.code = .ok ∧ t.STATE = some (stateAfter x c)) ∨
        (commandError c = some r.code ∧ r.code ≠ .ok ∧ r.res = 0 ∧ t.STATE = some x)) := by
  obtain ⟨t, ht, hport, hx⟩ := issue_stateAfter hs c
  rcases issue_cases hs c with ⟨seed, hseed, he⟩ | ⟨hd, he⟩ | ⟨hdraw, v, he⟩ | ⟨k, hk, he⟩
  all_goals obtain rfl := Host.Outcome.next.inj (ht.symm.trans he)
  · exact ⟨_, _, he, hport, rfl, .inl ⟨commandError_of_commandSeed hseed, rfl, hx⟩⟩
  · exact ⟨_, _, he, hport, rfl, .inl ⟨commandError_of_decode hd, rfl, hx⟩⟩
  · exact ⟨_, _, he, hport, rfl, .inl ⟨commandError_of_successfulDraw hdraw, rfl, hx⟩⟩
  · obtain ⟨-, -, hne⟩ := commandError_eq_some hk
    exact ⟨_, _, he, hport, rfl, .inr ⟨hk, hne, rfl, hs⟩⟩

theorem step_answers {s : State} {x : Word} {c : Command} {rest : List PortEvent} (hs : s.STATE = some x)
    (hport : s.port = .command c :: rest) :
    ∃ t r, step s = .next t ∧ t.port = rest ∧ t.response = some r ∧
      ((commandError c = none ∧ r.code = .ok ∧ t.STATE = some (stateAfter x c)) ∨
        (commandError c = some r.code ∧ r.code ≠ .ok ∧ r.res = 0 ∧ t.STATE = some x)) := by
  rw [step_of_command hport]
  exact issue_answers (s := s.withPort rest) hs c

/-- What a command without an error leaves in STATE, by its instruction. -/
theorem stateAfter_of_decode {c : Command} {i : Instr} (hd : decode c = .ok i) (hn : operandError i = none) (x : Word) :
    stateAfter x c = (seedOf i).getD (if isDrawing i then stateTransition x else x) := by
  have hseed := commandSeed_of_decode hd
  have hdraw : successfulDraw c = isDrawing i := by simp [successfulDraw_of_decode hd, hn]
  cases hi : seedOf i with
  | some seed => exact stateAfter_of_commandSeed (hseed.trans hi) x
  | none => rw [stateAfter_of_unseeded (hseed.trans hi), hdraw, Option.getD_none]

/-! What a step can do -/

/-- One case for each kind of oldest request, and one for an empty port. -/
theorem step_cases (s : State) :
    (s.port = [] ∧ step s = .next (idle s)) ∨
    (∃ rest, s.port = .reset :: rest ∧ step s = .next (hardReset (s.withPort rest))) ∨
    (∃ c rest, s.port = .command c :: rest ∧ step s = issue c (s.withPort rest)) ∨
    (∃ first second rest, s.port = .overlap first second :: rest ∧ step s = .fault .overlappingCommands) := by
  cases hport : s.port with
  | nil => exact .inl ⟨rfl, step_of_empty hport⟩
  | cons e rest =>
    cases e with
    | reset => exact .inr (.inl ⟨rest, rfl, step_of_event hport⟩)
    | command c => exact .inr (.inr (.inl ⟨c, rest, rfl, step_of_event hport⟩))
    | overlap first second => exact .inr (.inr (.inr ⟨first, second, rest, rfl, step_of_event hport⟩))

/-- The two protocol violations of R148, as the oldest request: (b) and (a). -/
abbrev ViolatesProtocol (s : State) : Prop :=
  (s.STATE = none ∧ ∃ c rest, s.port = .command c :: rest) ∨
  ∃ first second rest, s.port = .overlap first second :: rest

/-- A step ends in a next state or, on a protocol violation, in a fault. -/
theorem step_outcome (s : State) :
    (¬ViolatesProtocol s ∧ ∃ t, step s = .next t) ∨ (ViolatesProtocol s ∧ ∃ f, step s = .fault f) := by
  rcases step_cases s with ⟨hport, he⟩ | ⟨rest, hport, he⟩ | ⟨c, rest, hport, he⟩ | ⟨first, second, rest, hport, he⟩
  · exact .inl ⟨by simp [hport], _, he⟩
  · exact .inl ⟨by simp [hport], _, he⟩
  · cases hs : s.STATE with
    | none => exact .inr ⟨.inl ⟨hs, c, rest, hport⟩, _, he.trans (issue_of_none (s := s.withPort rest) hs c)⟩
    | some x =>
      obtain ⟨t, -, ht, -⟩ := step_answers hs hport
      exact .inl ⟨by simp [hs, hport], t, ht⟩
  · exact .inr ⟨.inr ⟨first, second, rest, hport⟩, _, he⟩

theorem step_fault_iff (s : State) : (∃ f, step s = .fault f) ↔ ViolatesProtocol s := by
  rcases step_outcome s with ⟨hv, t, he⟩ | ⟨hv, hf⟩
  · exact iff_of_false (by simp [he]) hv
  · exact iff_of_true hf hv

theorem step_ne_refused (s : State) (r : Refusal) : step s ≠ .refused r := by
  rcases step_outcome s with ⟨-, t, he⟩ | ⟨-, f, he⟩ <;> simp [he]

/-! The invariant of a safe run (R175) -/

theorem zeroOnError_of_ok {r : Response} (h : r.code = .ok) : r.zeroOnError = true := by
  simp [Response.zeroOnError, h]

theorem zeroOnError_of_res_eq_zero {r : Response} (h : r.res = 0) : r.zeroOnError = true := by
  simp [Response.zeroOnError, h]

theorem serialised_cons {s : State} {e : PortEvent} {rest : List PortEvent} (hport : s.port = e :: rest)
    (h : s.Serialised) : e.serialised = true ∧ rest.all PortEvent.serialised = true := by
  rwa [State.Serialised, hport, List.all_cons, Bool.and_eq_true] at h

/-- Progress and preservation in one: from a state that meets the invariant a step gives a next state that meets it. -/
theorem step_of_inv {s : State} (h : s.Inv) : ∃ t, step s = .next t ∧ t.Inv := by
  obtain ⟨hlive, hser, -⟩ := h
  rcases step_cases s with ⟨-, he⟩ | ⟨rest, hport, he⟩ | ⟨c, rest, hport, -⟩ | ⟨first, second, rest, hport, -⟩
  · exact ⟨_, he, hlive, hser, rfl⟩
  · obtain ⟨-, hrest⟩ := serialised_cons hport hser
    exact ⟨_, he, rfl, hrest, rfl⟩
  · obtain ⟨-, hrest⟩ := serialised_cons hport hser
    obtain ⟨x, hs⟩ := Option.isSome_iff_exists.mp hlive
    obtain ⟨t, r, ht, rfl, hr, ⟨-, hok, hx⟩ | ⟨-, -, hzero, hx⟩⟩ := step_answers hs hport
    · exact ⟨t, ht, by simp [State.Live, hx], hrest, by simp [hr, zeroOnError_of_ok hok]⟩
    · exact ⟨t, ht, by simp [State.Live, hx], hrest, by simp [hr, zeroOnError_of_res_eq_zero hzero]⟩
  · obtain ⟨hbad, -⟩ := serialised_cons hport hser
    cases hbad

/-- Settles O4: the next state is the one that `step_of_inv` gives. -/
theorem stepKeepsSafeRun : Obligations.StepKeepsSafeRun := by
  intro s t hs ht
  obtain ⟨u, hu, hinv⟩ := step_of_inv hs
  obtain rfl := Host.Outcome.next.inj (ht.symm.trans hu)
  exact hinv

/-- Settles O6, by induction on the number of steps. -/
theorem safeRunsNeverStop : Obligations.SafeRunsNeverStop := by
  intro n
  induction n with
  | zero => exact fun s hs => ⟨s, rfl, hs⟩
  | succ n ih =>
    intro s hs
    obtain ⟨u, hu, huinv⟩ := step_of_inv hs
    obtain ⟨t, ht, htinv⟩ := ih u huinv
    exact ⟨t, (run_of_next core n s u hu).trans ht, htinv⟩

/-! Outcomes, errors and faults -/

/-- Settles O3: a command's answer is `step_answers`, and a step's stops are `step_outcome`. -/
theorem everyCommandEndsInOneOfThreeOutcomes : Obligations.EveryCommandEndsInOneOfThreeOutcomes := by
  refine ⟨fun s c rest x hs hport => ?_, step_fault_iff, step_ne_refused⟩
  obtain ⟨t, r, ht, htport, hr, ⟨herr, hok, hx⟩ | ⟨-, hne, hzero, hx⟩⟩ := step_answers hs hport
  · obtain ⟨i, hd, hn⟩ := commandError_eq_none herr
    refine ⟨t, r, ht, htport, hr, .inl ⟨hok, i, hd, hn, ?_⟩⟩
    rw [hx, stateAfter_of_decode hd hn]
    cases seedOf i with
    | some seed => rfl
    | none => rfl
  · exact ⟨t, r, ht, htport, hr, .inr ⟨hne, hzero, hx.trans hs.symm⟩⟩

/-- Settles O30: the code of the response is the command's error, whose causes the lemmas on `commandError` give. -/
theorem eachErrorCodeHasItsCause : Obligations.EachErrorCodeHasItsCause := by
  refine ⟨⟨rfl, rfl, rfl, rfl⟩, by decide, fun c => by cases c <;> rfl, fun s x c rest hs hport => ?_⟩
  obtain ⟨t, r, ht, -, hr, hcase⟩ := step_answers hs hport
  have hcode {k : Code} (hk : k ≠ .ok) : r.code = k ↔ commandError c = some k := by
    rcases hcase with ⟨herr, hok, -⟩ | ⟨herr, -⟩
    · simp [herr, hok, hk.symm]
    · simp [herr]
  refine ⟨t, r, ht, hr, (hcode (by decide)).trans (commandError_eq_illegalCommand_iff c),
    (hcode (by decide)).trans (commandError_eq_invalidRange_iff c),
    (hcode (by decide)).trans (commandError_eq_invalidInterval_iff c), fun hne => ?_⟩
  rcases hcase with ⟨-, hok, -⟩ | ⟨-, -, hzero, hx⟩
  · exact absurd hok hne
  · exact ⟨hzero, hx⟩

/-- Settles O31: only a command shows a response, an error leaves STATE, and STATE alone determines what follows. -/
theorem errorsLeaveNoResidue : Obligations.ErrorsLeaveNoResidue := by
  intro s t r ht hr hne
  rcases step_cases s with ⟨-, he⟩ | ⟨rest, -, he⟩ | ⟨c, rest, hport, he⟩ | ⟨first, second, rest, -, he⟩
  · obtain rfl := Host.Outcome.next.inj (ht.symm.trans he)
    cases hr
  · obtain rfl := Host.Outcome.next.inj (ht.symm.trans he)
    cases hr
  · cases hs : s.STATE with
    | none => simp [he, issue_of_none (s := s.withPort rest) hs] at ht
    | some x =>
      obtain ⟨u, q, hu, -, hq, hcase⟩ := step_answers hs hport
      obtain rfl := Host.Outcome.next.inj (ht.symm.trans hu)
      obtain rfl := Option.some.inj (hr.symm.trans hq)
      rcases hcase with ⟨-, hok, -⟩ | ⟨-, -, hzero, hx⟩
      · exact absurd hok hne
      · exact ⟨hx, hzero, responses_of_STATE_eq (hx.trans hs.symm)⟩
  · simp [he] at ht

/-- Settles O2: each violation as the oldest request, and a stopped instance as a fixed point of `Instance.advance`. -/
theorem protocolViolationsFault : Obligations.ProtocolViolationsFault := by
  refine ⟨rfl, fun s first second rest hport => ?_, fun s c rest hs hport => ?_, fun i s hs => exec_of_none hs i,
    fun f n => Function.iterate_fixed rfl n⟩
  · have hstep : step s = .fault .overlappingCommands := step_of_event hport
    exact ⟨⟨_, hstep⟩, fun _ => hstep⟩
  · exact (step_of_command hport).trans (issue_of_none (s := s.withPort rest) hs c)

/-- Settles O7: `idle` clears the response and nothing else. -/
theorem idleBlockKeepsSTATE : Obligations.IdleBlockKeepsSTATE := fun _ hport => step_of_empty hport

end Sys2Proof.Machine

/-! PROOFS. Reset (spec/70_reset_and_hazards.md): what the step that takes a reset leaves (R170), and that the state
after reset meets the invariant of a safe run (R172). -/

namespace Sys2Proof.Machine

theorem step_of_reset {s : State} {rest : List PortEvent} (hport : s.port = .reset :: rest) :
    step s = .next (hardReset (s.withPort rest)) := step_of_event hport

/-- Settles O1: a reset and CONSTRUCT 0 both leave STATE = 0, and STATE alone determines the later responses. -/
theorem resetSeedsZero : Obligations.ResetSeedsZero := by
  refine ⟨rfl, fun s rest hport => step_of_reset hport, fun s t u rest hlive hport ht hu => ?_⟩
  obtain ⟨x, hs⟩ := Option.isSome_iff_exists.mp hlive
  obtain rfl := Host.Outcome.next.inj (ht.symm.trans (step_of_reset hport))
  obtain rfl := Host.Outcome.next.inj (hu.symm.trans (exec_construct hs 0))
  have hSTATE : (hardReset (s.withPort rest)).STATE = ((s.writeSTATE 0).respond .ok 0).STATE := by simp
  exact responses_of_STATE_eq hSTATE

/-- Settles O5: STATE holds 0, and there is no request and no response to break the rest of the invariant. -/
theorem resetIsSafe : Obligations.ResetIsSafe := by
  have hlive : State.reset.Live := rfl
  have hserialised : State.reset.Serialised := rfl
  exact ⟨hlive, hserialised, rfl⟩

end Sys2Proof.Machine
